-- ==== Sys2Proof/Word.lean ====
section
/-! DEFINITION. The values CORE works on (spec/00_scope.md R7, R12, spec/42_io.md R122).

Every value is a mathematical integer and width is a range, never a number of bits, because the machine is decimal
(R7): a word is an `Int`. There is no bit numbering or slicing anywhere in this instruction set (R9), so no bit vector
stands in this model. The decimal operations themselves are in `Machine/Decimal.lean`. -/

namespace Sys2Proof

/-- A text, one character after the other (R12, R29). -/
abbrev Text := List Char

/-- A decimal digit. -/
abbrev Digit := Fin 10

/-- The optional sign that opens a token (R122). -/
inductive Sign where
  | plus
  | minus
  deriving DecidableEq, Repr, Inhabited

/-- A token of the input queue: an optional sign, then one or more decimal digits (R28, R122). The type holds exactly the
texts of that form, with their leading zeros and their explicit `+`; `Machine.tokenOfText` and `Machine.tokenText`
translate (log entry 14). -/
structure Token where
  sign : Option Sign
  first : Digit
  rest : List Digit
  deriving DecidableEq, Repr, Inhabited

end Sys2Proof
end

