-- ==== Sys2Proof/Config.lean ====
section
/-! DEFINITION. What is fixed when the machine is built (spec/00_scope.md R6, spec/10_state.md R21), and the one free value.

The parameters of R6 that are plain numbers of this hardware stand as numerals where they are used, named beside them:
NCELLS 100 (addresses 0..99), CELL_DIGITS 3, SHIFT_MOD 10000, RETURN_CELL 99, RETURN_BIAS 800. -/

namespace Sys2Proof

/-- The configuration of one machine instance that the spec leaves as named parameters (R6, R21). No step writes it. -/
structure Params where
  /-- BOOT_WORD: what a full reset puts into cell 0 (R6, R191), in -999..999 (spec/93_implementation_defined.md I4). -/
  bootWord : Int
  /-- LINE_PROVIDER: whether a line provider is present (R6, R126). -/
  lineProvider : Bool
  deriving DecidableEq, Repr

namespace Config

/-- The sign token of a negative value's text (SIGN_TOKEN, R6, R12, D4). -/
abbrev signToken : Char := '-'

/-- The parameters of the machine `State.reset` is: BOOT_WORD at the spec's default 1, the word `001`, INP 01 (R6, D6;
PRESUMED, log entry 2, unsafe), and a line provider present (DESIGN CHOICE, log entry 3, unsafe). -/
def params : Params where
  bootWord := 1
  lineProvider := true

/-- FREE VALUE: the token with which the host answers the n-th line request (R126: "The answer t is a free input"). It has
no body, so nothing can be proved of which token it is (DESIGN CHOICE, log entry 4). -/
opaque lineAnswer : Nat → Token

end Config

end Sys2Proof
end

