-- ==== Sys2Proof/Machine/Decimal.lean ====
section
/-! DEFINITION. The decimal operations of spec/00_scope.md R8 to R12: floor division and remainder, digits, cell
truncation, the text of a cell and the value of a token. -/

namespace Sys2Proof.Machine

/-- `a div b` (R8): floor division. -/
def floorDiv (a b : Int) : Int := Int.fdiv a b

/-- `a mod b` (R8): the floor remainder `a - b × (a div b)`. -/
def floorMod (a b : Int) : Int := Int.fmod a b

/-- `trunc3(v) = sign(v) × (|v| mod 1000)` (R11). -/
def trunc3 (v : Int) : Int := Int.sign v * ((v.natAbs % 1000 : Nat) : Int)

/-- `digit_k(n) = (n div 10^k) mod 10` (R9). -/
def digitAt (k n : Nat) : Nat := n / 10 ^ k % 10

/-- The character of a decimal digit. -/
def digitChar (d : Nat) : Char := Char.ofNat (48 + d)

/-- `fmt3(v)` (R12): the sign token when v is negative, then the three-digit zero-padded magnitude. The spec defines it for
v in -999..999; outside that range, which no cell of a run reaches, it gives the three low digits (DESIGN CHOICE, safe,
log entry 7). -/
def fmt3 (v : Int) : Text :=
  (if v < 0 then [Config.signToken] else []) ++
    [digitChar (digitAt 2 v.natAbs), digitChar (digitAt 1 v.natAbs), digitChar (digitAt 0 v.natAbs)]

/-- The number a list of decimal digits spells, most significant first, after the digits already read as `n`. -/
def readDigits (n : Nat) : List Digit → Nat
  | [] => n
  | d :: ds => readDigits (10 * n + d.val) ds

/-- `parse(t)` (R12): the integer a token spells in decimal. -/
def parse (t : Token) : Int :=
  let magnitude : Int := (readDigits 0 (t.first :: t.rest) : Nat)
  match t.sign with
  | some .minus => -magnitude
  | _ => magnitude

/-- The digit a character is, if it is one. -/
def digitOfChar (c : Char) : Option Digit :=
  if h : 48 ≤ c.toNat ∧ c.toNat < 58 then some ⟨c.toNat - 48, by omega⟩ else none

/-- The digits a text consists of, if it consists of digits only. -/
def digitsOfText : Text → Option (List Digit)
  | [] => some []
  | c :: cs =>
    match digitOfChar c, digitsOfText cs with
    | some d, some ds => some (d :: ds)
    | _, _ => none

/-- One or more digits after an optional sign. -/
def unsignedToken (sign : Option Sign) (t : Text) : Option Token :=
  match digitsOfText t with
  | some (d :: ds) => some { sign := sign, first := d, rest := ds }
  | _ => none

/-- The token a text is (R122): an optional sign then one or more decimal digits; a text of any other form is not a
token. -/
def tokenOfText : Text → Option Token
  | '+' :: t => unsignedToken (some .plus) t
  | '-' :: t => unsignedToken (some .minus) t
  | t => unsignedToken none t

/-- The text of a token (R28, R122). -/
def tokenText (t : Token) : Text :=
  (match t.sign with
    | none => []
    | some .plus => ['+']
    | some .minus => ['-']) ++ (t.first :: t.rest).map fun d => digitChar d.val

end Sys2Proof.Machine
end

