-- ==== Sys2Proof/Syntax.lean ====
section
/-! DEFINITION. The ten instructions (spec/00_scope.md R2, spec/30_encoding.md R63, R64), one constructor per row of
spec/opcode_table.json. An operand is a non-negative integer (R10); its range is checked in `WellFormed.lean`. -/

namespace Sys2Proof

/-- An instruction with its operand in the form R63 gives it. -/
inductive Instr where
  /-- INP aa (opcode 0): input one token into cell a (R124). -/
  | inp (a : Nat)
  /-- CLA aa (opcode 1): load the accumulator from cell a (R101). -/
  | cla (a : Nat)
  /-- ADD aa (opcode 2): add cell a to the accumulator (R102). -/
  | add (a : Nat)
  /-- TAC aa (opcode 3): branch to t if the accumulator is negative (R141). -/
  | tac (t : Nat)
  /-- SFT xy (opcode 4): shift the accumulator left x digits, then right y digits (R103). -/
  | sft (x y : Nat)
  /-- OUT aa (opcode 5): output cell a as text (R125). -/
  | out (a : Nat)
  /-- STO aa (opcode 6): store the accumulator in cell a (R104). -/
  | sto (a : Nat)
  /-- SUB aa (opcode 7): subtract cell a from the accumulator (R105). -/
  | sub (a : Nat)
  /-- JMP aa (opcode 8): jump to t, leaving a return word in cell 99 (R142). -/
  | jmp (t : Nat)
  /-- HRS (opcode 9): halt and reset the registers; the operand n is decoded and ignored (R63, R143). -/
  | hrs (n : Nat)
  deriving DecidableEq, Repr

end Sys2Proof
end

