-- ==== Sys2Proof/WellFormed.lean ====
section
/-! DEFINITION. Which instructions the encoding can spell: operand 0..99, shift counts 0..9 (spec/30_encoding.md R61, R63). -/

namespace Sys2Proof

/-- Every operand of the instruction lies in the range its digits give it (R61, R63). -/
def Instr.wf : Instr → Bool
  | .inp a => decide (a ≤ 99)
  | .cla a => decide (a ≤ 99)
  | .add a => decide (a ≤ 99)
  | .tac t => decide (t ≤ 99)
  | .sft x y => decide (x ≤ 9 ∧ y ≤ 9)
  | .out a => decide (a ≤ 99)
  | .sto a => decide (a ≤ 99)
  | .sub a => decide (a ≤ 99)
  | .jmp t => decide (t ≤ 99)
  | .hrs n => decide (n ≤ 99)

end Sys2Proof
end

