-- ==== Sys2Proof/Decode.lean ====
section
/-! DEFINITION. Decoding a word, encoding an instruction, and the opcode-to-handler table (spec/30_encoding.md R60 to R74). -/

namespace Sys2Proof

/-- Why a word spells no instruction. -/
inductive Reject where
  /-- The decoded opcode has no entry in the registry (R70, R71). -/
  | noHandler (opcode word : Int)
  deriving DecidableEq, Repr

/-- The opcode of a word: `IR div 100` (R62). -/
def opcodeOf (w : Int) : Int := Machine.floorDiv w 100

/-- The operand of a word: `IR mod 100`, always in 0..99 (R62). -/
def operandOf (w : Int) : Nat := (Machine.floorMod w 100).toNat

/-- SFT's left-shift count x, the tens digit of its operand (R63). -/
def leftCount (operand : Nat) : Nat := operand / 10

/-- SFT's right-shift count y, the ones digit of its operand (R63). -/
def rightCount (operand : Nat) : Nat := operand % 10

/-- The instruction of an opcode digit and an operand: the opcode map (R64). `none` where the digit is no opcode. -/
def opcodeMap (digit operand : Nat) : Option Instr :=
  match digit with
  | 0 => some (.inp operand)
  | 1 => some (.cla operand)
  | 2 => some (.add operand)
  | 3 => some (.tac operand)
  | 4 => some (.sft (leftCount operand) (rightCount operand))
  | 5 => some (.out operand)
  | 6 => some (.sto operand)
  | 7 => some (.sub operand)
  | 8 => some (.jmp operand)
  | 9 => some (.hrs operand)
  | _ => none

/-- Dispatch lookup (R70): the registry as a static table, as R65 allows. A negative opcode has no entry (R71). -/
def lookupHandler (opcode : Int) (operand : Nat) : Option Instr :=
  if opcode < 0 then none else opcodeMap opcode.toNat operand

/-- Decode a word (R62) and look its opcode up (R70). Total on every integer; a word that spells no instruction is
rejected by name with its opcode and itself (R71, R85). -/
def decode (w : Int) : Except Reject Instr :=
  match lookupHandler (opcodeOf w) (operandOf w) with
  | some i => .ok i
  | none => .error (.noHandler (opcodeOf w) w)

/-- The opcode digit of an instruction (R64). -/
def Instr.opcode : Instr → Nat
  | .inp _ => 0
  | .cla _ => 1
  | .add _ => 2
  | .tac _ => 3
  | .sft _ _ => 4
  | .out _ => 5
  | .sto _ => 6
  | .sub _ => 7
  | .jmp _ => 8
  | .hrs _ => 9

/-- The two operand digits of an instruction, as one number (R61, R63). -/
def Instr.operand : Instr → Nat
  | .inp a => a
  | .cla a => a
  | .add a => a
  | .tac t => t
  | .sft x y => 10 * x + y
  | .out a => a
  | .sto a => a
  | .sub a => a
  | .jmp t => t
  | .hrs n => n

/-- The word of an instruction: 100 × opcode + operand (R61, R75). -/
def encode (i : Instr) : Int := ((100 * i.opcode + i.operand : Nat) : Int)

/-- The instruction the decoder reads from the word whose number is `w`. The table's words are decimal numbers in one
cell (R60, R77), so the bits the host numbers are those of the number itself, and how many they are plays no part
(DEDUCED, log entry 1). -/
def decodeTableWord (_nbits w : Nat) : Option Instr :=
  match decode (w : Int) with
  | .ok i => some i
  | .error _ => none

end Sys2Proof
end

