-- ==== Sys2Proof/Machine/Memory.lean ====
section
/-! DEFINITION. The contents of the Memory Bank (spec/10_state.md R27, spec/20_memory.md R40 to R44) as plain data: a list
of (address, value) pairs in one canonical form. A cell is one signed integer, not a byte (R47; log entries 1 and 15). -/

namespace Sys2Proof.Machine

/-- The cells that do not read as blank, by rising address. -/
abbrev Memory := List (Nat × Int)

/-- What an unlisted cell reads as: a blank cell reads as 0, and blank is not kept apart from 0 (R27, R44, D5). -/
def blankCell : Int := 0

/-- The value of cell `a`. -/
def readCell : Memory → Nat → Int
  | [], _ => blankCell
  | (b, v) :: m, a => if b = a then v else readCell m a

/-- The memory without its entries for cell `a`. -/
def eraseCell : Memory → Nat → Memory
  | [], _ => []
  | (b, v) :: m, a => if b = a then eraseCell m a else (b, v) :: eraseCell m a

/-- The memory with an entry for cell `a`, put before the first entry of a higher address. -/
def insertCell : Memory → Nat → Int → Memory
  | [], a, v => [(a, v)]
  | (b, w) :: m, a, v => if a < b then (a, v) :: (b, w) :: m else (b, w) :: insertCell m a v

/-- The memory with the value `v` in cell `a`; a blank value is not listed. -/
def writeCell (m : Memory) (a : Nat) (v : Int) : Memory :=
  if v = blankCell then eraseCell m a else insertCell (eraseCell m a) a v

/-- The canonical form: addresses strictly rising, and no entry equal to what an unlisted cell reads as. -/
abbrev Memory.wf (m : Memory) : Prop :=
  List.Pairwise (fun c d : Nat × Int => c.1 < d.1) m ∧ ∀ c ∈ m, c.2 ≠ blankCell

/-- Every listed cell exists and holds a cell value: addresses 0..99, values -999..999 (R27, R32). -/
abbrev Memory.inRange (m : Memory) : Prop :=
  ∀ c ∈ m, c.1 ≤ 99 ∧ -999 ≤ c.2 ∧ c.2 ≤ 999

end Sys2Proof.Machine
end

