-- ==== Sys2Proof/Machine/State.lean ====
section
/-! DEFINITION. The state of CORE (spec/10_state.md R20 to R37), its run-time faults (spec/60_exceptions.md R160 to R163)
and its full-reset values (spec/70_reset_and_hazards.md R191). -/

namespace Sys2Proof.Machine

/-- The run-time faults of R160, as the records that the fault latch holds (R26). A raise is a NEXT state with the record
latched (R166), so no step answers `Host.Outcome.fault` (DEDUCED, safe, log entry 6). ConfigurationFault is no run-time
fault: it is `ConfigurationFault` in `Machine/Registry.lean` (R161). -/
inductive Fault where
  /-- AddressFault(a) (R162). Raised by the PC advance from 99, with a = 100 (R83), and by MemRead and MemWrite of an
  address outside 0..99 (R46), which no instruction can form. Safe: the spec's own fault. -/
  | addressFault (a : Int)
  /-- OpcodeFault(op, w) (R163). Raised by the dispatch of a word whose opcode has no handler (R71, R85). Safe: the spec's
  own fault. -/
  | opcodeFault (op w : Int)
  deriving DecidableEq, Repr

/-- Why a step does not happen. -/
inductive Refusal where
  /-- No meaning has been given to the instruction. Raised by a refused arm of `exec`; none is left. Safe. -/
  | notModelled (mnemonic : String)
  /-- Raised by `step` when a fault is latched: the machine is quiescent until a full reset (R80, R168). Safe: the spec's
  own refusal. -/
  | faultLatched (f : Fault)
  /-- Raised by INP on an empty input queue when no line provider is present: the step never happens and the machine is
  stuck, not faulted (R126, spec/93_implementation_defined.md I6). Safe: the spec's own stuck state. -/
  | noLineProvider
  deriving DecidableEq, Repr

/-- The state of one machine instance (R20), with the configuration it was built with (R21) and one field of the model's
own. -/
@[ext]
structure State where
  /-- PC, the address of the next instruction to fetch, 0..99 (R23, R32). -/
  pc : Nat
  /-- IR, the most recently fetched word, -999..999 (R24, R32). -/
  ir : Int
  /-- ACC, the accumulator: any integer (R22). -/
  acc : Int
  /-- `running`, the run flag (R25). -/
  running : Bool
  /-- `fault`, the fault latch (R26). -/
  fault : Option Fault
  /-- `mem`, the 100 cells (R27). -/
  mem : Memory
  /-- `inq`, the input queue, front first (R28). -/
  inq : List Token
  /-- `outq`, the output sequence, oldest first (R29). -/
  outq : List Text
  /-- The configuration of this instance; no step writes it (R21; DESIGN CHOICE, safe, log entry 5). -/
  params : Params
  /-- The MODEL's own: how many free line-provider answers have been taken, so that each is a fresh free value (DESIGN
  CHOICE, log entry 4). -/
  lineRequests : Nat
  deriving DecidableEq, Repr

/-- The state FullReset leaves in a machine with the configuration `p` (R36, R191). -/
def State.powerOn (p : Params) : State where
  pc := 0
  ir := 0
  acc := 0
  running := false
  fault := none
  mem := writeCell [] 0 p.bootWord
  inq := []
  outq := []
  params := p
  lineRequests := 0

/-- The machine right after construction and its full reset (R191, R192), with the default parameters (log entries 2
and 3). -/
def State.reset : State := State.powerOn Config.params

end Sys2Proof.Machine
end

