-- ==== Sys2Proof/Machine/Ops.lean ====
section
/-! DEFINITION. The named operations over the state: one update per register, the Memory Bank's read and write
(spec/20_memory.md R42, R43), the queues (spec/42_io.md R121, R123), raising a fault (spec/60_exceptions.md R166), and the
stages of a step before its handler (spec/40_fetch_execute.md R82 to R85). -/

namespace Sys2Proof.Machine

/-- What a handler or a step answers. -/
abbrev Result := Host.Outcome State Fault Refusal

/-! ### One update per field -/

/-- `PC <- v`. -/
def State.setPc (v : Nat) (s : State) : State := { s with pc := v }
/-- `IR <- v`. -/
def State.setIr (v : Int) (s : State) : State := { s with ir := v }
/-- `ACC <- v`. -/
def State.setAcc (v : Int) (s : State) : State := { s with acc := v }
/-- `running <- v`. -/
def State.setRunning (v : Bool) (s : State) : State := { s with running := v }
/-- The fault record `f` latched (R26). -/
def State.latch (f : Fault) (s : State) : State := { s with fault := some f }
/-- The memory replaced. -/
def State.setMem (m : Memory) (s : State) : State := { s with mem := m }
/-- The input queue replaced. -/
def State.setInq (q : List Token) (s : State) : State := { s with inq := q }
/-- The output sequence replaced. -/
def State.setOutq (q : List Text) (s : State) : State := { s with outq := q }
/-- One free answer of the line provider taken (log entry 4). -/
def State.countRequest (s : State) : State := { s with lineRequests := s.lineRequests + 1 }

/-- The value of cell `a`. -/
def State.cell (s : State) (a : Nat) : Int := readCell s.mem a

/-! ### Faults -/

/-- Taking a fault (R166): the record is latched, every write made before the raise stays and nothing else changes. There
is no handler, vector, mode change or saved register, and no return from it: only the host's full reset leaves the
Faulted phase (R168; `fullReset` in `Machine/Boundary.lean`). -/
def raise (f : Fault) (s : State) : Result := .next (s.latch f)

/-! ### The Memory Bank -/

/-- `MemRead(a, 1)` (R42): AddressFault(a) outside 0..99, else the cell's value. -/
def memRead (a : Int) (s : State) : Except Fault Int :=
  if a < 0 ∨ 99 < a then .error (.addressFault a) else .ok (s.cell a.toNat)

/-- `MemWrite(a, 1, v)` (R43): AddressFault(a) outside 0..99, checked first; else the cell takes trunc3(v). -/
def memWrite (a v : Int) (s : State) : Except Fault State :=
  if a < 0 ∨ 99 < a then .error (.addressFault a)
  else .ok (s.setMem (writeCell s.mem a.toNat (trunc3 v)))

/-! ### The queues -/

/-- `InPop()` (R121) before `parse`: the front token and the state without it; on an empty queue the line provider's
answer (R126), which is a free value (DESIGN CHOICE, log entry 4) and is not put into the queue; `none` where no line
provider is present, so that the step never happens. -/
def inPop (s : State) : Option (Token × State) :=
  match s.inq with
  | t :: rest => some (t, s.setInq rest)
  | [] => if s.params.lineProvider then some (Config.lineAnswer s.lineRequests, s.countRequest) else none

/-- `OutPush(t)` (R123): append at the back. -/
def outPush (t : Text) (s : State) : State := s.setOutq (s.outq ++ [t])

/-! ### The stages of a step before its handler -/

/-- Fetch (R82): `IR <- MemRead(PC, 1)`. -/
def fetch (s : State) : Except Fault State :=
  match memRead (s.pc : Int) s with
  | .ok w => .ok (s.setIr w)
  | .error f => .error f

/-- The PC advance (R83): AddressFault(PC + 1) where PC + 1 would leave 0..99, and then PC keeps its value. -/
def advance (s : State) : Except Fault State :=
  if 99 < s.pc + 1 then .error (.addressFault ((s.pc + 1 : Nat) : Int)) else .ok (s.setPc (s.pc + 1))

/-- What the stages before the handler come to. -/
inductive Fetched where
  /-- A stage raised the fault; the state holds the writes made before it. -/
  | raised (f : Fault) (s : State)
  /-- The instruction to dispatch, in the post-fetch state. -/
  | ready (i : Instr) (s : State)
  deriving DecidableEq, Repr

/-- Decode and dispatch lookup of the word in IR (R84, R85). They write nothing. -/
def decodeStage (s : State) : Fetched :=
  match decode s.ir with
  | .ok i => .ready i s
  | .error (.noHandler op w) => .raised (.opcodeFault op w) s

/-- Fetch, advance, decode and lookup, in this order (R86); the first fault raised is the step's (R165). -/
def fetchDecode (s : State) : Fetched :=
  match fetch s with
  | .error f => .raised f s
  | .ok s₁ =>
    match advance s₁ with
    | .error f => .raised f s₁
    | .ok s₂ => decodeStage s₂

end Sys2Proof.Machine
end

