-- ==== Sys2Proof/Machine/Operands.lean ====
section
/-! DEFINITION. The operand forms of spec/30_encoding.md R63: a direct address (read or written through the Memory Bank), a
branch target, and SFT's two shift counts. -/

namespace Sys2Proof.Machine

/-- A direct address that is read: `MemRead(a, 1)`, then `k` with its value; a raise ends the step (R13, R42). -/
def withCell (a : Nat) (s : State) (k : Int → Result) : Result :=
  match memRead (a : Int) s with
  | .ok v => k v
  | .error f => raise f s

/-- A direct address that is written: `MemWrite(a, 1, v)`, then `k` with the state it gives; a raise ends the step (R13,
R43). -/
def storing (a : Nat) (v : Int) (s : State) (k : State → Result) : Result :=
  match memWrite (a : Int) v s with
  | .ok t => k t
  | .error f => raise f s

/-- A branch target: absolute, taken as it stands (R63, R140): `PC <- t`. -/
def branchTo (t : Nat) (s : State) : State := s.setPc t

/-- SFT's left-shift count: `x` times `ACC <- (ACC × 10) mod 10000`, the floor remainder (R103; SHIFT_MOD, R6). -/
def shiftLeft : Nat → Int → Int
  | 0, v => v
  | x + 1, v => shiftLeft x (floorMod (v * 10) 10000)

/-- SFT's right-shift count: `y` times `ACC <- ACC div 10`, floor division (R103). -/
def shiftRight : Nat → Int → Int
  | 0, v => v
  | y + 1, v => shiftRight y (floorDiv v 10)

end Sys2Proof.Machine
end

