-- ==== Sys2Proof/Machine/ArithStore.lean ====
section
/-! DEFINITION. The arithmetic and store instructions CLA, ADD, SFT, STO, SUB (spec/41_arith_store.md R100 to R108). Each
handler runs in the post-fetch state and leaves PC alone. -/

namespace Sys2Proof.Machine

/-- CLA (R101): `ACC <- MemRead(a, 1)`. -/
def execCla (a : Nat) (s : State) : Result := withCell a s fun v => .next (s.setAcc v)

/-- ADD (R102): `ACC <- ACC + MemRead(a, 1)`, the integer sum with no bound. -/
def execAdd (a : Nat) (s : State) : Result := withCell a s fun v => .next (s.setAcc (s.acc + v))

/-- SFT (R103): x left shifts modulo 10000, then y right shifts by floor division. -/
def execSft (x y : Nat) (s : State) : Result := .next (s.setAcc (shiftRight y (shiftLeft x s.acc)))

/-- STO (R104): `MemWrite(a, 1, ACC)`. -/
def execSto (a : Nat) (s : State) : Result := storing a s.acc s .next

/-- SUB (R105): `ACC <- ACC - MemRead(a, 1)`, the integer difference with no bound. -/
def execSub (a : Nat) (s : State) : Result := withCell a s fun v => .next (s.setAcc (s.acc - v))

end Sys2Proof.Machine
end

