-- ==== Sys2Proof/Machine/Flags.lean ====
section
/-! DEFINITION. CORE has no condition codes (spec/10_state.md R30) and no instruction writes a flag but HRS, which clears
`running`, the only status flag (R25). TAC tests the sign of ACC directly. The phase is a function of `fault` and
`running` (R33). -/

namespace Sys2Proof.Machine

/-- TAC's test: ACC < 0; zero is not negative (spec/43_control.md R141). -/
def accNegative (s : State) : Bool := decide (s.acc < 0)

/-- The phases of R33. Halted is Idle reached by HRS (D11). -/
inductive Phase where
  | idle
  | running
  | faulted
  deriving DecidableEq, Repr

/-- The engine's phase (R33). -/
def phase (s : State) : Phase :=
  match s.fault with
  | some _ => .faulted
  | none => if s.running then .running else .idle

end Sys2Proof.Machine
end

