-- ==== Sys2Proof/Machine/Control.lean ====
section
/-! DEFINITION. The control-flow instructions TAC, JMP and HRS (spec/43_control.md R140 to R145). PC is the post-fetch
value when a handler runs (R140). -/

namespace Sys2Proof.Machine

/-- TAC (R141): `if ACC < 0: PC <- t`. -/
def execTac (t : Nat) (s : State) : Result := .next (if accNegative s then branchTo t s else s)

/-- JMP (R142): `MemWrite(99, 1, PC + 800)`, then `PC <- t` (RETURN_CELL 99 and RETURN_BIAS 800, R6). -/
def execJmp (t : Nat) (s : State) : Result :=
  storing 99 ((s.pc + 800 : Nat) : Int) s fun s₁ => .next (branchTo t s₁)

/-- HRS (R143): `PC <- 0; IR <- 0; ACC <- 0; running <- false`; the operand is ignored. -/
def execHrs (_n : Nat) (s : State) : Result := .next ((((s.setPc 0).setIr 0).setAcc 0).setRunning false)

end Sys2Proof.Machine
end

