-- ==== Sys2Proof/Machine/InputOutput.lean ====
section
/-! DEFINITION. The input/output instructions INP and OUT (spec/42_io.md R120 to R128). -/

namespace Sys2Proof.Machine

/-- INP (R124): `v := InPop(); MemWrite(a, 1, v)`. On an empty queue the line provider's answer is a free value (R126, log
entry 4); with no line provider the step never happens (`noLineProvider`: stuck, not faulted, R126). -/
def execInp (a : Nat) (s : State) : Result :=
  match inPop s with
  | some (t, s₁) => storing a (parse t) s₁ .next
  | none => .refused .noLineProvider

/-- OUT (R125): `OutPush(fmt3(MemRead(a, 1)))`. -/
def execOut (a : Nat) (s : State) : Result := withCell a s fun v => .next (outPush (fmt3 v) s)

end Sys2Proof.Machine
end

