-- ==== Sys2Proof/Machine/Dispatch.lean ====
section
/-! DEFINITION. The handler of each instruction (spec/40_fetch_execute.md R85, R86), run in the post-fetch state. -/

namespace Sys2Proof.Machine

def exec (i : Instr) (s : State) : Host.Outcome State Fault Refusal :=
  match i with
  | .inp a => Sys2Proof.Machine.execInp a s
  | .cla a => Sys2Proof.Machine.execCla a s
  | .add a => Sys2Proof.Machine.execAdd a s
  | .tac t => Sys2Proof.Machine.execTac t s
  | .sft x y => Sys2Proof.Machine.execSft x y s
  | .out a => Sys2Proof.Machine.execOut a s
  | .sto a => Sys2Proof.Machine.execSto a s
  | .sub a => Sys2Proof.Machine.execSub a s
  | .jmp t => Sys2Proof.Machine.execJmp t s
  | .hrs n => Sys2Proof.Machine.execHrs n s

end Sys2Proof.Machine
end

