-- ==== Sys2Proof/Machine/Step.lean ====
section
/-! DEFINITION. One atomic step of the engine (spec/40_fetch_execute.md R80 to R87). -/

namespace Sys2Proof.Machine

/-- Step() (R86). It is refused while a fault is latched (R80); it neither tests nor sets `running` (R87); a fault of a
stage before the handler is latched in the next state (R166). -/
def step (s : State) : Host.Outcome State Fault Refusal :=
  match s.fault with
  | some f => .refused (.faultLatched f)
  | none =>
    match fetchDecode s with
    | .raised f s₁ => raise f s₁
    | .ready i s₁ => exec i s₁

/-- `s` with the word `w` in the cell at PC, so that the next step fetches it: a launch premise in the sense of R58 (log
entries 1 and 9). -/
def State.withFetchWord (s : State) (_nbits w : Nat) : State := s.setMem (writeCell s.mem s.pc (w : Int))

end Sys2Proof.Machine
end

