-- ==== Sys2Proof/Machine/Registry.lean ====
section
/-! DEFINITION. Building a machine: capability groups, the checks of spec/30_encoding.md R65 to R69, ConfigurationFault
(spec/60_exceptions.md R160, R161) and construction (spec/70_reset_and_hazards.md R192). -/

namespace Sys2Proof.Machine

/-- The three capability groups (R16, R66). -/
inductive GroupName where
  | arithStore
  | io
  | controlFlow
  deriving DecidableEq, Repr

/-- An opcode number as a group declares it: an integer, or a handler name that resolves to none (R68). -/
inductive DeclaredOpcode where
  | number (n : Int)
  | unresolved (name : Text)
  deriving DecidableEq, Repr

/-- A capability group as it is given to Construct: its name and the opcode numbers it declares (R65). -/
structure Group where
  name : GroupName
  opcodes : List DeclaredOpcode
  deriving DecidableEq, Repr

/-- ConfigurationFault with its reason (R160, code 1). It is raised by `construct` alone, and never latched (R161). -/
inductive ConfigurationFault where
  /-- R67: the composition lacks the group. -/
  | missingGroup (g : GroupName)
  /-- R68: a declared number is not one of 0..9. -/
  | invalidOpcode (d : DeclaredOpcode)
  /-- R69: two groups declare the number. -/
  | duplicateOpcode (n : Int)
  deriving DecidableEq, Repr

/-- The group an opcode digit belongs to (R64, R66). -/
def groupOf (digit : Nat) : GroupName :=
  match digit with
  | 0 | 5 => .io
  | 3 | 8 | 9 => .controlFlow
  | _ => .arithStore

/-- A group that declares the numbers of a list. -/
def groupOfNumbers (name : GroupName) (numbers : List Int) : Group where
  name := name
  opcodes := numbers.map .number

/-- The three groups as R66 assigns their members. -/
def standardGroups : List Group :=
  [groupOfNumbers .arithStore [1, 2, 4, 6, 7], groupOfNumbers .io [0, 5], groupOfNumbers .controlFlow [3, 8, 9]]

/-- The first of the three groups that the composition lacks (R67). -/
def missingGroup (groups : List Group) : Option GroupName :=
  [GroupName.arithStore, GroupName.io, GroupName.controlFlow].find? fun g => !(groups.any fun h => decide (h.name = g))

/-- A declared number is valid for 0..9 only (R68, D20). -/
def validOpcode (d : DeclaredOpcode) : Bool :=
  match d with
  | .number n => decide (0 ≤ n ∧ n ≤ 9)
  | .unresolved _ => false

/-- The first declared number that is not valid (R68). -/
def invalidOpcode (groups : List Group) : Option DeclaredOpcode :=
  (groups.flatMap Group.opcodes).find? fun d => !validOpcode d

/-- The ten opcode numbers (NOPCODES, R6). -/
def opcodeNumbers : List Int := [0, 1, 2, 3, 4, 5, 6, 7, 8, 9]

/-- The group declares the number. -/
def declares (n : Int) (g : Group) : Bool := g.opcodes.contains (.number n)

/-- The least opcode number that two of the groups declare (R69). A group that repeats a number of its own is one
declaration of it (DESIGN CHOICE, log entry 12). -/
def duplicateOpcode (groups : List Group) : Option Int :=
  opcodeNumbers.find? fun n => decide (2 ≤ groups.countP (declares n))

/-- The least opcode number that no group declares. -/
def absentOpcode (groups : List Group) : Option Int :=
  opcodeNumbers.find? fun n => decide (groups.countP (declares n) = 0)

/-- The checks made when the registry is built (R67 to R69), in the order of those rules; a composition in which some digit
is declared by nobody lacks the group that R66 gives the digit to, since R70 says that every machine that passes the
checks holds all of 0..9 (the order and this reading: DESIGN CHOICE, log entry 12). -/
def checkRegistry (groups : List Group) : Option ConfigurationFault :=
  match missingGroup groups with
  | some g => some (.missingGroup g)
  | none =>
    match invalidOpcode groups with
    | some d => some (.invalidOpcode d)
    | none =>
      match duplicateOpcode groups with
      | some n => some (.duplicateOpcode n)
      | none =>
        match absentOpcode groups with
        | some n => some (.missingGroup (groupOf n.toNat))
        | none => none

/-- Construct(groups) (R92, R192): the checks, then a full reset; a failed check produces no machine. -/
def construct (groups : List Group) (p : Params) : Except ConfigurationFault State :=
  match checkRegistry groups with
  | some f => .error f
  | none => .ok (State.powerOn p)

/-- The numeric code of ConfigurationFault (R160). -/
def configurationFaultCode : Nat := 1

/-- The numeric code of a run-time fault (R160): 2 for AddressFault, 3 for OpcodeFault. -/
def faultCode (f : Fault) : Nat :=
  match f with
  | .addressFault _ => 2
  | .opcodeFault _ _ => 3

end Sys2Proof.Machine
end

