-- ==== Sys2Proof/Machine/Boundary.lean ====
section
/-! DEFINITION. The host's operations as whole transactions (spec/40_fetch_execute.md R88 to R96, spec/42_io.md R126, R127,
spec/70_reset_and_hazards.md R191). They stand around `step`, which is the engine's own move. -/

namespace Sys2Proof.Machine

/-! ### What the operations do to a state -/

/-- FullReset() (R191): every piece of state as R36 lists it. The configuration stays, and so does the model's own count of
free answers, so that no free answer comes twice (log entry 4). -/
def fullReset (s : State) : State := { State.powerOn s.params with lineRequests := s.lineRequests }

/-- The result text of an output sequence (R90): the texts in order, one newline between neighbours, none after the last. -/
def resultText : List Text → Text
  | [] => []
  | [t] => t
  | t :: rest => t ++ '\n' :: resultText rest

/-- Flush() (R90), its effect on the state: the output sequence is emptied. -/
def flushed (s : State) : State := s.setOutq []

/-- The tokens a list of texts spells, if every one of them is a token (R122). -/
def tokensOfTexts : List Text → Option (List Token)
  | [] => some []
  | t :: ts =>
    match tokenOfText t, tokensOfTexts ts with
    | some x, some xs => some (x :: xs)
    | _, _ => none

/-- LoadDeck(tokens) (R127): append at the back of the input queue. -/
def loadDeck (ts : List Token) (s : State) : State := s.setInq (s.inq ++ ts)

/-- The next step is an INP that finds the input queue empty, so that it asks the line provider (R126). -/
def needsLine (s : State) : Bool :=
  s.inq.isEmpty && s.fault.isNone &&
    match fetchDecode s with
    | .ready (.inp _) _ => true
    | _ => false

/-- The step of a waiting INP once the host has answered `t` (R126): it completes as if `t` had been the front of the
queue, and the answer is not left in the queue. -/
def stepAnswered (t : Token) (s : State) : Result := step (s.setInq [t])

/-! ### A whole run, under fuel (R88, R94; D30: no watchdog) -/

/-- How a run stands (R94). -/
inductive RunEnd where
  /-- A step executed HRS; Flush has delivered the result. -/
  | halted (s : State) (result : Text)
  /-- The host's Stop was seen at a step boundary; Flush has delivered the result. -/
  | stopped (s : State) (result : Text)
  /-- A step raised the fault; nothing is flushed. -/
  | faulted (s : State) (f : Fault)
  /-- The run has not ended: the fuel is spent, or the next step never happens (R126). -/
  | notEnded (s : State)
  deriving DecidableEq, Repr

/-- What the end of a step means to the run loop (R88, R91, R96): a fault ends the run without a flush; `running` cleared by
HRS ends it with one; else it goes on. -/
inductive AfterStep where
  | faulted (f : Fault)
  | halted
  | goesOn
  deriving DecidableEq, Repr

/-- The run loop's two tests (R88). -/
def afterStep (s : State) : AfterStep :=
  match s.fault with
  | some f => .faulted f
  | none => if s.running then .goesOn else .halted

/-- Stop() (R89): `running <- false`; the loop ends and flushes as after HRS. -/
def stopRun (s : State) : State := flushed (s.setRunning false)

/-- The loop of Run() (R88) for at most `fuel` steps. `stop` is how many steps the host lets pass before it issues Stop, if
it does (R89). -/
def runLoop (fuel : Nat) (stop : Option Nat) (s : State) : RunEnd :=
  match fuel with
  | 0 => .notEnded s
  | fuel + 1 =>
    if stop = some 0 then .stopped (stopRun s) (resultText s.outq)
    else
      match step s with
      | .next t =>
        match afterStep t with
        | .faulted f => .faulted t f
        | .halted => .halted (flushed t) (resultText t.outq)
        | .goesOn => runLoop fuel (stop.map Nat.pred) t
      | _ => .notEnded s

/-- Run() (R88): admitted in the Idle phase only. -/
def run (fuel : Nat) (stop : Option Nat) (s : State) : Option RunEnd :=
  match phase s with
  | .idle => some (runLoop fuel stop (s.setRunning true))
  | _ => none

/-- What Run() hands back to the host (R92): the result text, or the fault. -/
inductive RunReturn where
  /-- The result text that Flush delivers (R90). -/
  | result (text : Text)
  /-- The fault that ended the run (R96). -/
  | fault (f : Fault)
  deriving DecidableEq, Repr

/-- What a whole run hands back, once it has ended (R92, R94). -/
def runReturn (e : RunEnd) : Option RunReturn :=
  match e with
  | .halted _ text => some (.result text)
  | .stopped _ text => some (.result text)
  | .faulted _ f => some (.fault f)
  | .notEnded _ => none

/-! ### The host interface of R92, one transaction at a time -/

/-- A machine and the host's end of it: whether a line request is open (R93, R126). -/
structure Session where
  core : State
  asking : Bool
  deriving DecidableEq, Repr

/-- The operations of R92, Construct apart (it is `construct`: it has no machine to start from). -/
inductive HostOp where
  | reset
  | loadDeck (tokens : List Text)
  | step
  | run
  | stop
  | answerLine (token : Text)
  | read
  deriving DecidableEq, Repr

/-- What Read() shows (R37, R92): the spec's whole state. -/
structure Reading where
  pc : Nat
  ir : Int
  acc : Int
  running : Bool
  fault : Option Fault
  mem : Memory
  inq : List Token
  outq : List Text
  deriving DecidableEq, Repr

/-- The reading of a state. -/
def readingOf (s : State) : Reading where
  pc := s.pc
  ir := s.ir
  acc := s.acc
  running := s.running
  fault := s.fault
  mem := s.mem
  inq := s.inq
  outq := s.outq

/-- What an operation itself hands back to the host (R92). -/
inductive Reply where
  | nothing
  /-- The fault that the host's Step raised. -/
  | fault (f : Fault)
  /-- A line request: the step waits for AnswerLine (R126). -/
  | lineRequest
  /-- Run() is under way: what it hands back comes with the transaction that ends the run (log entry 20). -/
  | later
  | reading (r : Reading)
  deriving DecidableEq, Repr

/-- How an operation, or the engine's own move in a run, comes out. -/
inductive Transaction where
  /-- It took place and handed back `r`; where it ended the run in progress, `ended` is what that Run() hands back. -/
  | done (s : Session) (r : Reply) (ended : Option RunReturn)
  /-- It is not admitted, and nothing changes (R92). -/
  | refused
  /-- It never completes: an INP step with an empty queue and no line provider (R126). The machine stays as it was, and so
  does the host's session; that the host may then go on with it by its phase is DESIGN CHOICE, unsafe, log entry 21. -/
  | never
  deriving DecidableEq, Repr

/-- The machine after a step of a run, for the host: the loop's end is seen here, and Run() then hands back its result or
the fault (R88, R92, R96). -/
def settleInRun (t : State) : Transaction :=
  match afterStep t with
  | .faulted f => .done { core := t, asking := false } .nothing (some (.fault f))
  | .halted => .done { core := flushed t, asking := false } .nothing (some (.result (resultText t.outq)))
  | .goesOn => .done { core := t, asking := false } .nothing none

/-- The machine after the host's single step: Step hands back the fault, if one was raised, and nothing is flushed (R92,
R95). -/
def settleSingle (t : State) : Transaction :=
  match t.fault with
  | some f => .done { core := t, asking := false } (.fault f) none
  | none => .done { core := t, asking := false } .nothing none

/-- The machine after a step. `inRun` is whether a run is in progress. -/
def settle (inRun : Bool) (t : State) : Transaction := if inRun then settleInRun t else settleSingle t

/-- The transaction that a step's answer is. -/
def settleStep (inRun : Bool) (r : Result) : Transaction :=
  match r with
  | .next t => settle inRun t
  | _ => .never

/-- One step begun: it opens a line request where it needs a token and a provider is present, never completes where none is
present, and else is the engine's step (R86, R126). -/
def beginStep (inRun : Bool) (s : State) : Transaction :=
  if needsLine s then
    if s.params.lineProvider then .done { core := s, asking := true } .lineRequest none else .never
  else settleStep inRun (step s)

/-- The engine's own move while a run is in progress: one pass of the loop of R88. -/
def engineMove (h : Session) : Transaction :=
  if h.asking then .refused
  else
    match phase h.core with
    | .running => beginStep true h.core
    | _ => .refused

/-- The host's operations (R92). While a line request is open the host must answer it before any other operation (R93, D16),
so nothing but AnswerLine is admitted then (DESIGN CHOICE for Reset and Read, safe, log entry 11). Run begins here, the
engine's moves go on with it, and the transaction that ends it carries what Run hands back; Stop itself hands back nothing
(DESIGN CHOICE, safe, log entry 20; `run` is Run() as one whole transaction). Where an INP is stuck with no line provider no
request is open, so every operation is admitted by its phase as between any two steps: Stop, LoadDeck, Read and Reset too
(R126 and I6 leave this open: DESIGN CHOICE, unsafe, log entry 21). A Reset in a run ends it with no flush, and Run hands back
nothing (DEDUCED, unsafe, log entry 18). -/
def hostOp (op : HostOp) (h : Session) : Transaction :=
  match op with
  | .answerLine text =>
    if h.asking then
      match tokenOfText text with
      | some t => settleStep h.core.running (stepAnswered t h.core)
      | none => .refused
    else .refused
  | .reset => if h.asking then .refused else .done { h with core := fullReset h.core } .nothing none
  | .read => if h.asking then .refused else .done h (.reading (readingOf h.core)) none
  | .loadDeck texts =>
    if h.asking then .refused
    else
      match phase h.core, tokensOfTexts texts with
      | .idle, some ts => .done { h with core := loadDeck ts h.core } .nothing none
      | _, _ => .refused
  | .step =>
    if h.asking then .refused
    else
      match phase h.core with
      | .idle => beginStep false h.core
      | _ => .refused
  | .run =>
    if h.asking then .refused
    else
      match phase h.core with
      | .idle => .done { h with core := h.core.setRunning true } .later none
      | _ => .refused
  | .stop =>
    if h.asking then .refused
    else
      match phase h.core with
      | .running => .done { h with core := stopRun h.core } .nothing (some (.result (resultText h.core.outq)))
      | _ => .refused

end Sys2Proof.Machine
end

