-- ==== Sys2Proof/Safety.lean ====
section
/-! DEFINITION. What counts as a safe step, and the invariant of every reachable state (spec/10_state.md
R32, spec/60_exceptions.md R164, R179). -/

namespace Sys2Proof.Machine

/-- The invariants of R32, with the canonical form of the memory and BOOT_WORD in the range of a cell
(spec/93_implementation_defined.md I4). -/
structure State.Inv (s : State) : Prop where
  pc_le : s.pc ≤ 99
  ir_range : -999 ≤ s.ir ∧ s.ir ≤ 999
  mem_wf : Memory.wf s.mem
  mem_range : Memory.inRange s.mem
  boot_range : -999 ≤ s.params.bootWord ∧ s.params.bootWord ≤ 999

/-- Every text of the output sequence is the fmt3 form of a cell value (R29). -/
def State.OutputForm (s : State) : Prop := ∀ t ∈ s.outq, ∃ v : Int, -999 ≤ v ∧ v ≤ 999 ∧ t = fmt3 v

/-- The two things that make a step fault (R179): PC has reached cell 99, or the word to execute is negative. -/
def State.faultAhead (s : State) : Prop := s.pc = 99 ∨ s.cell s.pc < 0

/-- The step happens and raises no fault. -/
def SafeStep (s : State) : Prop := ∃ t, step s = .next t ∧ t.fault = none

end Sys2Proof.Machine
end

