-- ==== Sys2Proof/Certificates/Slice0/Obligations.lean ====
section
/-! DEFINITION. The statements for the provers, in the order of the spec's files. Each docstring names the rules of spec/
that the statement formalises; a clause that rests on the model's own choice names its log entry. -/

open Sys2Proof Sys2Proof.Machine

/-! ### spec/00_scope.md: numbers, digits, texts -/

/-- R8: for a positive divisor, `div` is the greatest quotient and `mod` the remainder in 0..b-1, whatever the sign. -/
def Obligations.FloorDivisionTakesTheGreatestQuotient : Prop :=
  (∀ a b : Int, 0 < b →
    floorDiv a b * b ≤ a ∧ (∀ q : Int, q * b ≤ a → q ≤ floorDiv a b) ∧ 0 ≤ floorMod a b ∧ floorMod a b ≤ b - 1) ∧
  (∀ a b : Int, floorMod a b = a - b * floorDiv a b) ∧
  floorMod (-50) 10000 = 9950 ∧ floorDiv (-5) 10 = -1

/-- R11: trunc3 keeps the sign and the low three magnitude digits, and maps every integer into -999..999. -/
def Obligations.TruncationKeepsSignAndThreeDigits : Prop :=
  (∀ v : Int, trunc3 v = Int.sign v * ((v.natAbs % 1000 : Nat) : Int) ∧
    (trunc3 v).natAbs = v.natAbs % 1000 ∧ (0 ≤ v → 0 ≤ trunc3 v) ∧ (v ≤ 0 → trunc3 v ≤ 0) ∧
    -999 ≤ trunc3 v ∧ trunc3 v ≤ 999 ∧ (-999 ≤ v → v ≤ 999 → trunc3 v = v)) ∧
  trunc3 1234 = 234 ∧ trunc3 (-1234) = -234 ∧ trunc3 (-1000) = 0

/-- R12: the text of a cell is the sign token, where it is negative, and three zero-padded digits; a token parses to the
integer it spells in decimal; and parsing the text of a cell value gives it back. -/
def Obligations.ParsingUndoesTheCellText : Prop :=
  (∀ v : Int, -999 ≤ v → v ≤ 999 →
    (tokenOfText (fmt3 v)).map parse = some v ∧
    ∃ d₂ d₁ d₀ : Digit, v.natAbs = 100 * d₂.val + 10 * d₁.val + d₀.val ∧
      fmt3 v = (if v < 0 then ['-'] else []) ++ [digitChar d₂.val, digitChar d₁.val, digitChar d₀.val]) ∧
  (∀ t : Token, parse t = (if t.sign = some .minus then -1 else 1) *
    ((Nat.ofDigits 10 ((t.first :: t.rest).reverse.map fun d => d.val) : Nat) : Int)) ∧
  fmt3 42 = ['0', '4', '2'] ∧ fmt3 (-42) = ['-', '0', '4', '2'] ∧ fmt3 0 = ['0', '0', '0']

/-- R122: every token has a text that reads back as it, and a text that reads as a token is that token's text. -/
def Obligations.TokenTextsReadBack : Prop :=
  (∀ t : Token, tokenOfText (tokenText t) = some t) ∧
  (∀ (x : Text) (t : Token), tokenOfText x = some t → tokenText t = x)

/-! ### spec/20_memory.md: the Memory Bank -/

/-- R42: MemRead gives the cell at 0..99, an integer in -999..999 where every cell is one, a blank cell as 0 (a cell that
memory does not list, log entry 15), and raises AddressFault(a) anywhere else. -/
def Obligations.MemReadGivesTheCellOrFaults : Prop :=
  ∀ (s : State) (a : Int),
    (a < 0 ∨ 99 < a → memRead a s = .error (.addressFault a)) ∧
    (0 ≤ a → a ≤ 99 → memRead a s = .ok (s.cell a.toNat)) ∧
    (0 ≤ a → a ≤ 99 → (∀ c ∈ s.mem, c.1 ≠ a.toNat) → memRead a s = .ok 0) ∧
    (0 ≤ a → a ≤ 99 → Memory.inRange s.mem → ∃ v, memRead a s = .ok v ∧ -999 ≤ v ∧ v ≤ 999)

/-- R43: MemWrite stores trunc3(v) in its own cell and changes nothing else; outside 0..99 it raises AddressFault(a). -/
def Obligations.MemWriteStoresInItsOwnCellOrFaults : Prop :=
  ∀ (s : State) (a v : Int),
    (a < 0 ∨ 99 < a → memWrite a v s = .error (.addressFault a)) ∧
    (0 ≤ a → a ≤ 99 → ∃ t, memWrite a v s = .ok t ∧ t = { s with mem := t.mem } ∧
      t.cell a.toNat = trunc3 v ∧ ∀ b, b ≠ a.toNat → t.cell b = s.cell b)

/-- R45: the round-trip law, exact for a cell value and trunc3 of any other. -/
def Obligations.WriteThenReadGivesTheTruncatedValue : Prop :=
  ∀ (s : State) (a v : Int), 0 ≤ a → a ≤ 99 →
    ∃ t, memWrite a v s = .ok t ∧ memRead a t = .ok (trunc3 v) ∧ (-999 ≤ v → v ≤ 999 → memRead a t = .ok v)

/-- R57: a step changes at most one cell, and only by INP or STO (their operand's) or JMP (cell 99). -/
def Obligations.StepWritesOnlyTheTargetCell : Prop :=
  ∀ (s t : State) (b : Nat), s.pc ≤ 99 → step s = .next t → t.cell b ≠ s.cell b →
    decode (s.cell s.pc) = .ok (.inp b) ∨ decode (s.cell s.pc) = .ok (.sto b) ∨
    (b = 99 ∧ ∃ n, decode (s.cell s.pc) = .ok (.jmp n))

/-- R55: a store into the cell the next step fetches makes that step execute the new word. -/
def Obligations.StoreIsSeenByTheNextFetch : Prop :=
  ∀ (s : State) (i : Instr), s.fault = none → s.pc ≤ 98 → decode (trunc3 s.acc) = .ok i →
    ∃ t, exec (.sto s.pc) s = .next t ∧ t.cell s.pc = trunc3 s.acc ∧
      step t = exec i { t with ir := trunc3 s.acc, pc := s.pc + 1 }

/-! ### spec/30_encoding.md: words and the registry -/

/-- R62: decode splits a word by floor division; a word 0..999 has an opcode 0..9, a negative cell value one in -10..-1,
which no instruction has. -/
def Obligations.DecodeSplitsTheWord : Prop :=
  (∀ w : Int, opcodeOf w = floorDiv w 100 ∧ (operandOf w : Int) = floorMod w 100 ∧ operandOf w ≤ 99 ∧
    (0 ≤ w → w ≤ 999 → 0 ≤ opcodeOf w ∧ opcodeOf w ≤ 9) ∧
    (-999 ≤ w → w ≤ -1 → -10 ≤ opcodeOf w ∧ opcodeOf w ≤ -1 ∧ ∀ n, lookupHandler (opcodeOf w) n = none)) ∧
  opcodeOf (-1) = -1 ∧ operandOf (-1) = 99

/-- R64 (with the group column, R66): each opcode digit selects one instruction for all 100 operand values. -/
def Obligations.OpcodeMapIsAsTabulated : Prop :=
  (∀ n : Nat, n ≤ 99 →
    decode (n : Int) = .ok (.inp n) ∧
    decode (100 + n : Int) = .ok (.cla n) ∧
    decode (200 + n : Int) = .ok (.add n) ∧
    decode (300 + n : Int) = .ok (.tac n) ∧
    decode (400 + n : Int) = .ok (.sft (n / 10) (n % 10)) ∧
    decode (500 + n : Int) = .ok (.out n) ∧
    decode (600 + n : Int) = .ok (.sto n) ∧
    decode (700 + n : Int) = .ok (.sub n) ∧
    decode (800 + n : Int) = .ok (.jmp n) ∧
    decode (900 + n : Int) = .ok (.hrs n)) ∧
  (∀ d : Nat, d ≤ 9 → groupOf d =
    if d = 0 ∨ d = 5 then .io else if d = 3 ∨ d = 8 ∨ d = 9 then .controlFlow else .arithStore)

/-- R60: the words that decode to an instruction are exactly 0..999; a cell value in -999..-1 is no instruction. -/
def Obligations.ExactlyTheWordsZeroTo999Decode : Prop :=
  ∀ w : Int, (∃ i, decode w = .ok i) ↔ 0 ≤ w ∧ w ≤ 999

/-- R61 to R64: every well-formed instruction's word is in 0..999 and decodes to that instruction. -/
def Obligations.DecodingAnEncodedInstructionGivesItBack : Prop :=
  ∀ i : Instr, i.wf = true → 0 ≤ encode i ∧ encode i ≤ 999 ∧ decode (encode i) = .ok i

/-- R61, R64: what decodes is well formed, and its word is the one it was decoded from. -/
def Obligations.EncodingADecodedWordGivesItBack : Prop :=
  ∀ (w : Int) (i : Instr), decode w = .ok i → i.wf = true ∧ encode i = w

/-- The words of spec/95_test_vectors.md 2.3. -/
def Obligations.WordsOfTheTestVectorsDecode : Prop :=
  decode 0 = .ok (.inp 0) ∧ decode 1 = .ok (.inp 1) ∧ decode 423 = .ok (.sft 2 3) ∧ decode 899 = .ok (.jmp 99) ∧
  decode 999 = .ok (.hrs 99) ∧ decode (-1) = .error (.noHandler (-1) (-1)) ∧
  decode (-100) = .error (.noHandler (-1) (-100)) ∧ decode (-101) = .error (.noHandler (-2) (-101)) ∧
  decode (-999) = .error (.noHandler (-10) (-999))

/-- R67 to R69: a machine is built exactly when the three groups are there, every declared number is one of 0..9, and each
of 0..9 is declared by one group and no more; it is then in the full-reset state. That a digit declared by nobody fails the
build is the model's reading (log entry 12). -/
def Obligations.ConstructionChecksTheGroups : Prop :=
  ∀ (groups : List Group) (p : Params),
    (∀ s, construct groups p = .ok s → s = State.powerOn p) ∧
    ((∃ s, construct groups p = .ok s) ↔
      (∀ name, ∃ g ∈ groups, g.name = name) ∧
      (∀ g ∈ groups, ∀ d ∈ g.opcodes, ∃ n : Int, d = .number n ∧ 0 ≤ n ∧ n ≤ 9) ∧
      (∀ n : Int, 0 ≤ n → n ≤ 9 → groups.countP (declares n) = 1))

/-- R67: a composition that lacks a group fails with ConfigurationFault. That the reason reported is a group it lacks, even
where another check fails too, is the order in which the model makes the checks (log entry 12). -/
def Obligations.MissingGroupFailsTheBuild : Prop :=
  ∀ (groups : List Group) (p : Params), (∃ name, ∀ g ∈ groups, g.name ≠ name) →
    ∃ name, (∀ g ∈ groups, g.name ≠ name) ∧ construct groups p = .error (.missingGroup name)

/-! ### spec/41_arith_store.md: CLA, ADD, SFT, STO, SUB -/

/-- R101: CLA loads the accumulator and changes nothing else; words 100..199. -/
def Obligations.ClaLoadsTheCell : Prop :=
  ∀ (s : State) (a : Nat), a ≤ 99 →
    decode (100 + a : Int) = .ok (.cla a) ∧ exec (.cla a) s = .next { s with acc := s.cell a }

/-- R102: ADD adds the cell with no bound and changes nothing else; words 200..299. -/
def Obligations.AddAddsTheCellWithoutBound : Prop :=
  ∀ (s : State) (a : Nat), a ≤ 99 →
    decode (200 + a : Int) = .ok (.add a) ∧ exec (.add a) s = .next { s with acc := s.acc + s.cell a }

/-- R105: SUB subtracts the cell with no bound and changes nothing else; words 700..799. -/
def Obligations.SubSubtractsTheCellWithoutBound : Prop :=
  ∀ (s : State) (a : Nat), a ≤ 99 →
    decode (700 + a : Int) = .ok (.sub a) ∧ exec (.sub a) s = .next { s with acc := s.acc - s.cell a }

/-- R103: SFT shifts left x times modulo 10000, then right y times by floor division, and changes nothing else; words
400..499. -/
def Obligations.SftShiftsLeftThenRight : Prop :=
  ∀ (s : State) (x y : Nat), x ≤ 9 → y ≤ 9 →
    decode (400 + 10 * x + y : Int) = .ok (.sft x y) ∧
    exec (.sft x y) s =
      .next { s with acc := (fun v => Int.fdiv v 10)^[y] ((fun v => Int.fmod (v * 10) 10000)^[x] s.acc) }

/-- R107: the closed form of SFT. -/
def Obligations.SftHasAClosedForm : Prop :=
  ∀ (s : State) (x y : Nat), x ≤ 9 → y ≤ 9 →
    exec (.sft x y) s =
      .next { s with acc := (if x = 0 then Int.fdiv s.acc (10 ^ y)
                             else Int.fdiv (Int.fmod (s.acc * 10 ^ x) 10000) (10 ^ y)) }

/-- R103, corner cases: no left shift and no right shift change nothing; a left shift leaves 0..9999 even from a negative
accumulator; four left shifts leave 0; without a left shift a negative accumulator stays negative. -/
def Obligations.SftCornerCases : Prop :=
  ∀ (s : State) (x y : Nat), x ≤ 9 → y ≤ 9 → ∃ t, exec (.sft x y) s = .next t ∧
    (x = 0 → y = 0 → t = s) ∧
    (1 ≤ x → 0 ≤ t.acc ∧ t.acc ≤ 9999) ∧
    (4 ≤ x → t.acc = 0) ∧
    (x = 0 → s.acc < 0 → t.acc < 0) ∧
    (x = 0 → 0 ≤ s.acc → s.acc < 10 ^ y → t.acc = 0)

/-- R104: STO stores trunc3 of the accumulator in its cell; every other cell, the accumulator and all else is unchanged;
words 600..699. -/
def Obligations.StoStoresTheAccumulator : Prop :=
  ∀ (s : State) (a : Nat), a ≤ 99 →
    decode (600 + a : Int) = .ok (.sto a) ∧
    ∃ t, exec (.sto a) s = .next t ∧ t = { s with mem := t.mem } ∧ t.cell a = trunc3 s.acc ∧
      ∀ b, b ≠ a → t.cell b = s.cell b

/-! ### spec/42_io.md: INP and OUT -/

/-- R124, R121: INP with a token in the queue takes the front one into its cell, and changes nothing else; words 000..099.
(The empty queue is in the two statements after this one.) -/
def Obligations.InpStoresTheFrontToken : Prop :=
  ∀ (s : State) (a : Nat) (x : Token) (rest : List Token), a ≤ 99 → s.inq = x :: rest →
    decode (a : Int) = .ok (.inp a) ∧
    ∃ t, exec (.inp a) s = .next t ∧ t = { s with mem := t.mem, inq := rest } ∧ t.cell a = trunc3 (parse x) ∧
      ∀ b, b ≠ a → t.cell b = s.cell b

/-- R126: INP on an empty queue with a line provider stores the provider's answer, which does not enter the queue. The
answer is a free value, and the model's own count of them advances (log entry 4); the statement holds whatever token it
is. -/
def Obligations.InpStoresTheProvidersAnswer : Prop :=
  ∀ (s : State) (a : Nat), a ≤ 99 → s.inq = [] → s.params.lineProvider = true →
    ∃ t, exec (.inp a) s = .next t ∧ t = { s with mem := t.mem, lineRequests := s.lineRequests + 1 } ∧
      t.cell a = trunc3 (parse (Config.lineAnswer s.lineRequests)) ∧ ∀ b, b ≠ a → t.cell b = s.cell b

/-- R126: with no line provider an INP on an empty queue never happens: stuck, not faulted. -/
def Obligations.InpWithoutProviderNeverHappens : Prop :=
  ∀ (s : State) (a : Nat), s.fault = none → s.pc ≤ 98 → decode (s.cell s.pc) = .ok (.inp a) → s.inq = [] →
    s.params.lineProvider = false → step s = .refused .noLineProvider

/-- R125: OUT appends the text of its cell and changes nothing else; words 500..599. -/
def Obligations.OutAppendsTheCellText : Prop :=
  ∀ (s : State) (a : Nat), a ≤ 99 →
    decode (500 + a : Int) = .ok (.out a) ∧ exec (.out a) s = .next { s with outq := s.outq ++ [fmt3 (s.cell a)] }

/-- R28, R29: a step takes at most the front token, and only by INP; it appends at most one text, and only by OUT. -/
def Obligations.QueuesArePoppedByInpAndAppendedByOut : Prop :=
  ∀ s t : State, s.pc ≤ 99 → step s = .next t →
    (t.inq = s.inq ∨ ∃ x a, decode (s.cell s.pc) = .ok (.inp a) ∧ s.inq = x :: t.inq) ∧
    (t.outq = s.outq ∨ ∃ a, decode (s.cell s.pc) = .ok (.out a) ∧ t.outq = s.outq ++ [fmt3 (s.cell a)])

/-- R29, R128: in a state that meets the invariant, if every output text is the text of a cell value, so is every one after
a step. -/
def Obligations.OutputStaysTextsOfCells : Prop :=
  ∀ s t : State, s.Inv → s.OutputForm → step s = .next t → t.OutputForm

/-- R126, R88, R92: an INP that finds the queue empty, in the host's Step or in the engine's move of a run, opens a line
request and does not happen yet; the answer completes it as if it had been the front of the queue, leaves the queue empty,
and lets a run go on. With no provider it never completes. -/
def Obligations.AnswerLineCompletesTheWaitingInp : Prop :=
  ∀ (s : State) (a : Nat) (x : Text) (tok : Token), s.fault = none → s.pc ≤ 98 →
    decode (s.cell s.pc) = .ok (.inp a) → s.inq = [] → tokenOfText x = some tok →
    (s.running = false →
      (s.params.lineProvider = false → hostOp .step ⟨s, false⟩ = .never) ∧
      (s.params.lineProvider = true → hostOp .step ⟨s, false⟩ = .done ⟨s, true⟩ .lineRequest none)) ∧
    (s.running = true →
      (s.params.lineProvider = false → engineMove ⟨s, false⟩ = .never) ∧
      (s.params.lineProvider = true → engineMove ⟨s, false⟩ = .done ⟨s, true⟩ .lineRequest none)) ∧
    ∃ t, hostOp (.answerLine x) ⟨s, true⟩ = .done ⟨t, false⟩ .nothing none ∧
      t = { s with mem := t.mem, ir := s.cell s.pc, pc := s.pc + 1 } ∧ t.cell a = trunc3 (parse tok) ∧
      ∀ b, b ≠ a → t.cell b = s.cell b

/-- R126: the step of an INP that asks the line provider is the step completed by some answer of the host's, the free value
(log entry 4), with the model's own count advanced. -/
def Obligations.FreeAnswerIsOneOfTheHostsAnswers : Prop :=
  ∀ s : State, s.pc ≤ 99 → needsLine s = true → s.params.lineProvider = true →
    ∃ t, stepAnswered (Config.lineAnswer s.lineRequests) s = .next t ∧
      step s = .next { t with lineRequests := s.lineRequests + 1 }

/-- R127: LoadDeck appends its tokens in order in the Idle phase; a text that is no token, or another phase, refuses it. -/
def Obligations.LoadDeckAppendsInIdleOnly : Prop :=
  ∀ (s : State) (texts : List Text),
    (∀ ts : List Token, s.fault = none → s.running = false → texts.map tokenOfText = ts.map some →
      hostOp (.loadDeck texts) ⟨s, false⟩ = .done ⟨{ s with inq := s.inq ++ ts }, false⟩ .nothing none) ∧
    (s.fault ≠ none ∨ s.running = true ∨ none ∈ texts.map tokenOfText →
      hostOp (.loadDeck texts) ⟨s, false⟩ = .refused)

/-! ### spec/43_control.md: TAC, JMP, HRS -/

/-- R141: TAC branches when ACC < 0, and not on zero, and changes nothing else; words 300..399. -/
def Obligations.TacBranchesExactlyWhenNegative : Prop :=
  ∀ (s : State) (n : Nat), n ≤ 99 →
    decode (300 + n : Int) = .ok (.tac n) ∧
    exec (.tac n) s = .next (if s.acc < 0 then { s with pc := n } else s)

/-- R142: JMP leaves PC + 800 in cell 99 and sets PC to its target, and changes nothing else; words 800..899. PC is the
post-fetch value, in 0..99. -/
def Obligations.JmpLeavesTheReturnWord : Prop :=
  ∀ (s : State) (n : Nat), n ≤ 99 → s.pc ≤ 99 →
    decode (800 + n : Int) = .ok (.jmp n) ∧
    ∃ t, exec (.jmp n) s = .next t ∧ t = { s with pc := n, mem := t.mem } ∧ t.cell 99 = (s.pc : Int) + 800 ∧
      ∀ b, b ≠ 99 → t.cell b = s.cell b

/-- R143: HRS, with any operand, sets PC, IR and ACC to 0 and running to false, and changes nothing else; words 900..999. -/
def Obligations.HrsResetsTheRegistersOnly : Prop :=
  ∀ (s : State) (n : Nat), n ≤ 99 →
    decode (900 + n : Int) = .ok (.hrs n) ∧
    exec (.hrs n) s = .next { s with pc := 0, ir := 0, acc := 0, running := false }

/-- R25, R143: a step changes `running` only by HRS, and then clears it. -/
def Obligations.OnlyHrsClearsRunning : Prop :=
  ∀ s t : State, s.pc ≤ 99 → step s = .next t → t.running ≠ s.running →
    t.running = false ∧ ∃ n, decode (s.cell s.pc) = .ok (.hrs n)

/-- R144: after JMP 99 the next step fetches the return word, raises AddressFault(100) and executes nothing. -/
def Obligations.ReturnWordCannotRunInCell99 : Prop :=
  ∀ s : State, s.fault = none → s.pc ≤ 99 →
    ∃ t, exec (.jmp 99) s = .next t ∧ t.pc = 99 ∧
      step t = .next { t with ir := (s.pc : Int) + 800, fault := some (.addressFault 100) }

/-! ### spec/40_fetch_execute.md and spec/10_state.md: the step -/

/-- R86: where the cell at PC decodes to an instruction, the step is that instruction's handler in the state with IR loaded
and PC advanced. -/
def Obligations.StepRunsTheDecodedInstruction : Prop :=
  ∀ (s : State) (i : Instr), s.fault = none → s.pc ≤ 98 → decode (s.cell s.pc) = .ok i →
    step s = exec i { s with ir := s.cell s.pc, pc := s.pc + 1 }

/-- R83: the advance adds 1 to a PC below 99; at 99 the step raises AddressFault(100), PC stays 99 and IR keeps the fetched
word, whatever the word is (R165). -/
def Obligations.AdvanceFromCell99Faults : Prop :=
  (∀ s : State, s.pc ≤ 98 → advance s = .ok { s with pc := s.pc + 1 }) ∧
  (∀ s : State, s.fault = none → s.pc = 99 →
    step s = .next { s with ir := s.cell 99, fault := some (.addressFault 100) })

/-- R71: a fetched negative cell value raises OpcodeFault(opcode, IR) with an opcode in -10..-1 and PC already advanced, and
nothing else changes (R166); every word 0..999 spells an instruction. -/
def Obligations.NegativeWordRaisesOpcodeFault : Prop :=
  (∀ (s : State) (w : Int), s.fault = none → s.pc ≤ 98 → s.cell s.pc = w → -999 ≤ w → w ≤ -1 →
    -10 ≤ floorDiv w 100 ∧ floorDiv w 100 ≤ -1 ∧
    step s = .next { s with ir := w, pc := s.pc + 1, fault := some (.opcodeFault (floorDiv w 100) w) }) ∧
  (∀ w : Int, 0 ≤ w → w ≤ 999 → ∃ i, decode w = .ok i)

/-- R80: a step happens only when no fault is latched; while one is, every step is refused, and the full reset clears it. -/
def Obligations.LatchedFaultBlocksEveryStep : Prop :=
  (∀ (s : State) (f : Fault), s.fault = some f → step s = .refused (.faultLatched f)) ∧
  (∀ s t : State, step s = .next t → s.fault = none) ∧
  (∀ s : State, (fullReset s).fault = none)

/-- R164: no handler of a well-formed instruction raises a fault. -/
def Obligations.HandlersRaiseNoFault : Prop :=
  ∀ (i : Instr) (s : State), i.wf = true →
    (∀ f, exec i s ≠ .fault f) ∧ (∀ t, exec i s = .next t → t.fault = s.fault)

/-- R166, R167: a step that raises a fault latches the record, keeps the fetched word in IR, leaves PC at 99 (AddressFault)
or post-fetch (OpcodeFault), and changes nothing else. -/
def Obligations.FaultEntryKeepsTheSnapshot : Prop :=
  ∀ (s t : State) (f : Fault), s.pc ≤ 99 → step s = .next t → t.fault = some f →
    (s.pc = 99 ∧ f = .addressFault 100 ∧ t = { s with ir := s.cell 99, fault := some f }) ∨
    (s.pc ≤ 98 ∧ f = .opcodeFault (floorDiv (s.cell s.pc) 100) (s.cell s.pc) ∧
      t = { s with ir := s.cell s.pc, pc := s.pc + 1, fault := some f })

/-- R179: a step faults exactly when PC has reached cell 99 or the cell at PC holds a negative value; where a line provider
is present, every other step happens and raises no fault. That the step of an INP on an empty queue happens then is the
model's choice: R126 lets the provider never answer, and `step` always has its answer (log entry 4). -/
def Obligations.StepFaultsExactlyOnCell99OrNegativeWord : Prop :=
  ∀ s : State, s.Inv → s.fault = none →
    ((∃ t f, step s = .next t ∧ t.fault = some f) ↔ s.faultAhead) ∧
    (s.params.lineProvider = true → (SafeStep s ↔ ¬ s.faultAhead))

/-- R80 to R86, R126: with no fault latched, a step always happens, but for an INP that finds the queue empty and no line
provider (so no step answers with the host's fault outcome). R126 adds "or it never answers": that a present provider
always has an answer for `step` is the model's choice (log entry 4). -/
def Obligations.StepHappensUnlessInpIsStuck : Prop :=
  ∀ s : State, s.fault = none → s.pc ≤ 99 →
    (∃ t, step s = .next t) ∨
    (step s = .refused .noLineProvider ∧ s.inq = [] ∧ s.params.lineProvider = false ∧ s.pc ≤ 98 ∧
      ∃ a, decode (s.cell s.pc) = .ok (.inp a))

/-- R32: every step keeps the state's invariant: PC in 0..99, IR and every cell in -999..999, the memory canonical. -/
def Obligations.EveryStepKeepsTheStateInRange : Prop :=
  ∀ s t : State, s.Inv → step s = .next t → t.Inv

/-- R32, R191: the state after a full reset meets the invariant for every BOOT_WORD that is a cell value, and so does the
model's reset state (BOOT_WORD 1, log entry 2). -/
def Obligations.ResetStateIsInRange : Prop :=
  (∀ p : Params, -999 ≤ p.bootWord → p.bootWord ≤ 999 → (State.powerOn p).Inv) ∧ State.reset.Inv

/-- R22 to R24, R31: a step writes ACC only by CLA, ADD, SFT, SUB and HRS; IR becomes the fetched word, or 0 by HRS; PC
becomes PC + 1, or the target of a TAC on a negative ACC or of a JMP, or 0 by HRS, or stays 99 on the AddressFault; the
configuration never changes. -/
def Obligations.RegistersAreWrittenOnlyByTheirWriters : Prop :=
  ∀ s t : State, s.pc ≤ 99 → step s = .next t →
    (t.acc ≠ s.acc → ∃ i, decode (s.cell s.pc) = .ok i ∧
      (i.opcode = 1 ∨ i.opcode = 2 ∨ i.opcode = 4 ∨ i.opcode = 7 ∨ i.opcode = 9)) ∧
    (t.ir = s.cell s.pc ∨ (t.ir = 0 ∧ ∃ n, decode (s.cell s.pc) = .ok (.hrs n))) ∧
    (t.pc = s.pc + 1 ∨
      (s.acc < 0 ∧ decode (s.cell s.pc) = .ok (.tac t.pc)) ∨
      decode (s.cell s.pc) = .ok (.jmp t.pc) ∨
      (t.pc = 0 ∧ ∃ n, decode (s.cell s.pc) = .ok (.hrs n)) ∨
      (s.pc = 99 ∧ t.pc = 99 ∧ t.fault = some (.addressFault 100))) ∧
    t.params = s.params

/-- R87: a step neither tests nor sets `running`, HRS apart: with another value of it, the step does the same and keeps that
value, or clears it as HRS does; and a step that is refused is refused with any value of it. -/
def Obligations.StepNeitherTestsNorSetsRunning : Prop :=
  ∀ (s : State) (b : Bool),
    (∀ t, step s = .next t →
      (t.running = s.running ∧ step { s with running := b } = .next { t with running := b }) ∨
      (t.running = false ∧ (∃ n, decode (s.cell s.pc) = .ok (.hrs n)) ∧ step { s with running := b } = .next t)) ∧
    (∀ r, step s = .refused r → step { s with running := b } = .refused r)

/-! ### spec/40_fetch_execute.md: runs and the host's operations -/

/-- R94, R88: a run ends halted (at an HRS, registers 0), stopped (everything else kept) or faulted (`running` still true),
the first two with `running` false, the output emptied and its joined texts delivered. And the loop's passes: a Stop that is
due ends it; a step that goes on is followed by the loop in the new state; HRS ends it with a flush and a fault without one;
a step that does not happen, and spent fuel, leave it not ended. (Fuel and the count before Stop: log entry 17.) -/
def Obligations.RunEndsHaltedStoppedOrFaulted : Prop :=
  (∀ (fuel : Nat) (stop : Option Nat) (s : State), s.fault = none → s.running = true →
    match runLoop fuel stop s with
    | .halted t text => ∃ (u : State) (n : Nat), u.fault = none ∧ u.running = true ∧
        decode (u.cell u.pc) = .ok (.hrs n) ∧ text = ['\n'].intercalate u.outq ∧
        t = { u with pc := 0, ir := 0, acc := 0, running := false, outq := [] }
    | .stopped t text => stop ≠ none ∧ ∃ u : State, u.fault = none ∧ u.running = true ∧
        text = ['\n'].intercalate u.outq ∧ t = { u with running := false, outq := [] }
    | .faulted t f => t.fault = some f ∧ t.running = true ∧ ∃ u : State, step u = .next t ∧ t.outq = u.outq
    | .notEnded t => t.running = true ∧ t.fault = none) ∧
  (∀ (k : Nat) (s : State), runLoop (k + 1) (some 0) s =
    .stopped { s with running := false, outq := [] } (['\n'].intercalate s.outq)) ∧
  (∀ (k : Nat) (stop : Option Nat) (s t : State), stop ≠ some 0 → step s = .next t →
    (t.fault = none → t.running = true → runLoop (k + 1) stop s = runLoop k (stop.map Nat.pred) t) ∧
    (t.fault = none → t.running = false →
      runLoop (k + 1) stop s = .halted { t with outq := [] } (['\n'].intercalate t.outq)) ∧
    (∀ f, t.fault = some f → runLoop (k + 1) stop s = .faulted t f)) ∧
  (∀ (k : Nat) (stop : Option Nat) (s : State) (r : Refusal), stop ≠ some 0 → step s = .refused r →
    runLoop (k + 1) stop s = .notEnded s) ∧
  (∀ (stop : Option Nat) (s : State), runLoop 0 stop s = .notEnded s)

/-- R88, R92: Run is admitted in the Idle phase only and begins by setting `running`; as a whole it is the loop, and hands
back the result text or the fault. That the host interface splits it, with its return carried by the transaction that ends
the run, is the model's choice (log entry 20). -/
def Obligations.RunIsAdmittedInIdleOnly : Prop :=
  (∀ (fuel : Nat) (stop : Option Nat) (s : State),
    (s.fault = none → s.running = false →
      run fuel stop s = some (runLoop fuel stop { s with running := true }) ∧
      hostOp .run ⟨s, false⟩ = .done ⟨{ s with running := true }, false⟩ .later none) ∧
    (s.fault ≠ none ∨ s.running = true → run fuel stop s = none ∧ hostOp .run ⟨s, false⟩ = .refused)) ∧
  (∀ (t : State) (text : Text) (f : Fault), runReturn (.halted t text) = some (.result text) ∧
    runReturn (.stopped t text) = some (.result text) ∧ runReturn (.faulted t f) = some (.fault f) ∧
    runReturn (.notEnded t) = none)

/-- R89, R90, R92: Stop in a run clears `running`, empties the output sequence and changes nothing else; it hands back
nothing itself, and the run it ends hands back the output texts joined with one newline between neighbours; outside a run it
is refused. That Run's return comes beside the Stop that ends it is the model's choice (log entry 20), and so is that a run
whose next step is an INP stuck with no line provider can be stopped (log entry 21). -/
def Obligations.StopFlushesTheOutputAndKeepsTheRest : Prop :=
  ∀ s : State,
    (s.fault = none → s.running = true →
      hostOp .stop ⟨s, false⟩ =
        .done ⟨{ s with running := false, outq := [] }, false⟩ .nothing
          (some (.result (['\n'].intercalate s.outq)))) ∧
    (s.fault ≠ none ∨ s.running = false → hostOp .stop ⟨s, false⟩ = .refused)

/-- R88, R90, R91: in a run, the step that executes HRS ends it, and Run hands back the output texts; the step of any other
instruction (of an INP where the queue holds a token) leaves the machine Running, in the step's own state, with the run not
ended. -/
def Obligations.HrsEndsTheRunWithAFlush : Prop :=
  (∀ (s : State) (n : Nat), s.fault = none → s.running = true → s.pc ≤ 98 → decode (s.cell s.pc) = .ok (.hrs n) →
    engineMove ⟨s, false⟩ =
      .done ⟨{ s with pc := 0, ir := 0, acc := 0, running := false, outq := [] }, false⟩ .nothing
        (some (.result (['\n'].intercalate s.outq)))) ∧
  (∀ (s : State) (i : Instr), s.fault = none → s.running = true → s.pc ≤ 98 → decode (s.cell s.pc) = .ok i →
    (∀ n, i ≠ .hrs n) → (s.inq = [] → ∀ a, i ≠ .inp a) →
    ∃ t, step s = .next t ∧ engineMove ⟨s, false⟩ = .done ⟨t, false⟩ .nothing none ∧ phase t = .running)

/-- R95, R91, R92: the host's single step is admitted in the Idle phase only, leaves `running` false, never flushes the output,
and ends no run, so that no result is delivered. In the Idle phase it performs exactly the one step: the machine is Idle
again in that step's state and the host gets nothing, or it is Faulted there and the host gets the fault; in any other phase
it is refused. (A step that asks for a line: AnswerLineCompletesTheWaitingInp.) -/
def Obligations.SingleStepNeverFlushes : Prop :=
  (∀ (h h' : Session) (r : Reply) (e : Option RunReturn), h.core.pc ≤ 99 → hostOp .step h = .done h' r e →
    h.core.fault = none ∧ h.core.running = false ∧ h'.core.running = false ∧
    (h'.core.outq = h.core.outq ∨ ∃ text, h'.core.outq = h.core.outq ++ [text]) ∧ e = none) ∧
  (∀ s t : State, s.fault = none → s.running = false → needsLine s = false → step s = .next t →
    (t.fault = none → hostOp .step ⟨s, false⟩ = .done ⟨t, false⟩ .nothing none ∧ phase t = .idle) ∧
    (∀ f, t.fault = some f → hostOp .step ⟨s, false⟩ = .done ⟨t, false⟩ (.fault f) none ∧ phase t = .faulted)) ∧
  (∀ s : State, s.fault ≠ none ∨ s.running = true → hostOp .step ⟨s, false⟩ = .refused)

/-- R96, R91: a step that raises a fault in a run ends it without a flush: `running` stays true, the output is kept, and Run
hands back the fault; a step that raises none and leaves `running` set does not end the run. -/
def Obligations.FaultEndsTheRunWithoutAFlush : Prop :=
  (∀ (s t : State) (f : Fault), s.pc ≤ 99 → s.running = true → step s = .next t → t.fault = some f →
    engineMove ⟨s, false⟩ = .done ⟨t, false⟩ .nothing (some (.fault f)) ∧ t.running = true ∧ t.outq = s.outq) ∧
  (∀ s t : State, s.running = true → needsLine s = false → step s = .next t → t.fault = none → t.running = true →
    engineMove ⟨s, false⟩ = .done ⟨t, false⟩ .nothing none)

/-- R92, R93: while a line request is open the host has no operation but AnswerLine with a token, and AnswerLine has no
place without an open request. (That Reset and Read wait too is the model's reading, log entry 11.) R92, R37: with no request
open, Read is admitted in every phase, changes nothing, and shows the whole state of R20 (where an INP is stuck with no line
provider too, which is the model's choice, log entry 21). -/
def Obligations.OpenRequestAdmitsOnlyItsAnswer : Prop :=
  ∀ (s : State) (x : Text),
    (∀ op : HostOp, (∀ y, op ≠ .answerLine y) → hostOp op ⟨s, true⟩ = .refused) ∧
    (tokenOfText x = none → hostOp (.answerLine x) ⟨s, true⟩ = .refused) ∧
    hostOp (.answerLine x) ⟨s, false⟩ = .refused ∧ engineMove ⟨s, true⟩ = .refused ∧
    hostOp .read ⟨s, false⟩ = .done ⟨s, false⟩
      (.reading { pc := s.pc, ir := s.ir, acc := s.acc, running := s.running, fault := s.fault, mem := s.mem, inq := s.inq,
                  outq := s.outq }) none

/-! ### spec/70_reset_and_hazards.md: reset -/

/-- R191: the full reset sets every piece of state, from any state, and leaves the Idle phase; the host's Reset does it,
and no other operation of the host's leaves the Faulted phase. (The model's choices:
that its own count of free answers is kept, log entry 4; that a Reset in a run ends it with no flush and Run() then hands back
nothing, log entry 18; that Reset is admitted where an INP is stuck with no line provider too, log entry 21.) -/
def Obligations.FullResetSetsEveryPieceOfState : Prop :=
  ∀ s : State,
    hostOp .reset ⟨s, false⟩ = .done ⟨fullReset s, false⟩ .nothing none ∧ phase (fullReset s) = .idle ∧
    (fullReset s).pc = 0 ∧ (fullReset s).ir = 0 ∧ (fullReset s).acc = 0 ∧ (fullReset s).running = false ∧
    (fullReset s).fault = none ∧ (fullReset s).inq = [] ∧ (fullReset s).outq = [] ∧
    (fullReset s).cell 0 = s.params.bootWord ∧ (∀ a, a ≠ 0 → (fullReset s).cell a = 0) ∧
    (fullReset s).params = s.params ∧
    (∀ op h' r e, s.fault ≠ none → hostOp op ⟨s, false⟩ = .done h' r e → h'.core.fault = none → op = .reset)

/-- R193, R194: the first step from the model's reset state executes the bootstrap word 001, INP 01 (the spec's default,
log entry 2), so it asks for a token into cell 1 and leaves PC = 1. -/
def Obligations.FirstStepFromResetIsTheBootstrapInp : Prop :=
  decode (State.reset.cell State.reset.pc) = .ok (.inp 1) ∧
  ∀ (x : Token) (rest : List Token), ∃ t, step { State.reset with inq := x :: rest } = .next t ∧
    t.pc = 1 ∧ t.ir = 1 ∧ t.inq = rest ∧ t.cell 1 = trunc3 (parse x) ∧ t.cell 0 = 1

/-! ### spec/30_encoding.md and spec/60_exceptions.md: the reasons of ConfigurationFault -/

/-- R67 to R69: a composition that lacks a group, or that declares a number that is not an integer 0..9, or in which two
groups declare one number, raises ConfigurationFault and gives no machine. Where that check is the only one of the three
that fails, the record is R160's reason for it: missing_group(g), invalid_opcode(n), duplicate_opcode(n). -/
def Obligations.EachRegistryCheckRaisesItsFault : Prop :=
  ∀ (groups : List Group) (p : Params),
    ((∃ name, ∀ g ∈ groups, g.name ≠ name) → ∃ f, construct groups p = .error f) ∧
    ((∃ g ∈ groups, ∃ d ∈ g.opcodes, ∀ n : Int, d = .number n → n < 0 ∨ 9 < n) → ∃ f, construct groups p = .error f) ∧
    ((∃ n, 2 ≤ groups.countP (declares n)) → ∃ f, construct groups p = .error f) ∧
    (∀ name, (∀ g ∈ groups, g.name ≠ name) → (∀ other, other ≠ name → ∃ g ∈ groups, g.name = other) →
      (∀ g ∈ groups, ∀ d ∈ g.opcodes, ∃ n : Int, d = .number n ∧ 0 ≤ n ∧ n ≤ 9) →
      (∀ n, groups.countP (declares n) ≤ 1) →
      construct groups p = .error (.missingGroup name)) ∧
    (∀ d, (∃ g ∈ groups, d ∈ g.opcodes) → (∀ n : Int, d = .number n → n < 0 ∨ 9 < n) →
      (∀ name, ∃ g ∈ groups, g.name = name) →
      (∀ g ∈ groups, ∀ e ∈ g.opcodes, e = d ∨ ∃ n : Int, e = .number n ∧ 0 ≤ n ∧ n ≤ 9) →
      (∀ n, groups.countP (declares n) ≤ 1) →
      construct groups p = .error (.invalidOpcode d)) ∧
    (∀ n, 2 ≤ groups.countP (declares n) → (∀ m, m ≠ n → groups.countP (declares m) ≤ 1) →
      (∀ name, ∃ g ∈ groups, g.name = name) →
      (∀ g ∈ groups, ∀ d ∈ g.opcodes, ∃ k : Int, d = .number k ∧ 0 ≤ k ∧ k ≤ 9) →
      construct groups p = .error (.duplicateOpcode n))
end

