-- ==== Sys2Proof/Laws/Decimal.lean ====
section
/-! SUPPORT. The decimal operations in terms of Lean's `/` and `%`, which omega knows, and the range of a stored value. -/

namespace Sys2Proof.Machine

theorem floorDiv_eq (a : Int) {b : Int} (h : 0 < b) : floorDiv a b = a / b :=
  Int.fdiv_eq_ediv_of_nonneg a (Int.le_of_lt h)

theorem floorMod_eq (a : Int) {b : Int} (h : 0 < b) : floorMod a b = a % b :=
  Int.fmod_eq_emod_of_nonneg a (Int.le_of_lt h)

@[simp] theorem floorDiv_ten (a : Int) : floorDiv a 10 = a / 10 := floorDiv_eq a (by decide)

@[simp] theorem floorDiv_hundred (a : Int) : floorDiv a 100 = a / 100 := floorDiv_eq a (by decide)

@[simp] theorem floorMod_hundred (a : Int) : floorMod a 100 = a % 100 := floorMod_eq a (by decide)

@[simp] theorem floorMod_shiftMod (a : Int) : floorMod a 10000 = a % 10000 := floorMod_eq a (by decide)

/-- trunc3 on a non-negative value. -/
theorem trunc3_of_nonneg {v : Int} (h : 0 ≤ v) : trunc3 v = v % 1000 := by
  unfold trunc3
  rcases Int.lt_or_eq_of_le h with h | rfl
  · rw [Int.sign_eq_one_of_pos h]; omega
  · decide

/-- trunc3 on a negative value. -/
theorem trunc3_of_neg {v : Int} (h : v < 0) : trunc3 v = -((-v) % 1000) := by
  unfold trunc3
  rw [Int.sign_eq_neg_one_of_neg h]; omega

/-- What is stored is a cell value. -/
theorem trunc3_bounds (v : Int) : -999 ≤ trunc3 v ∧ trunc3 v ≤ 999 := by
  rcases Int.lt_or_le v 0 with h | h
  · rw [trunc3_of_neg h]; omega
  · rw [trunc3_of_nonneg h]; omega

end Sys2Proof.Machine
end

