-- ==== Sys2Proof/Laws/Memory.lean ====
section
/-! SUPPORT. What the memory operations do: a cell read after a write, and the canonical form, which every operation keeps. -/

namespace Sys2Proof.Machine

@[simp] theorem readCell_nil (a : Nat) : readCell [] a = blankCell := rfl

@[simp] theorem readCell_cons (b : Nat) (v : Int) (m : Memory) (a : Nat) :
    readCell ((b, v) :: m) a = if b = a then v else readCell m a := rfl

theorem readCell_eraseCell (m : Memory) (a b : Nat) :
    readCell (eraseCell m a) b = if b = a then blankCell else readCell m b := by
  induction m with
  | nil => simp [eraseCell]
  | cons c m ih =>
    obtain ⟨k, v⟩ := c
    simp only [eraseCell, readCell_cons]
    by_cases hk : k = a <;> by_cases hb : b = a <;> simp_all
    omega

theorem readCell_insertCell_same (m : Memory) (a : Nat) (v : Int) (h : ∀ c ∈ m, c.1 ≠ a) :
    readCell (insertCell m a v) a = v := by
  induction m with
  | nil => simp [insertCell]
  | cons c m ih =>
    obtain ⟨k, w⟩ := c
    have hk : k ≠ a := h (k, w) (by simp)
    simp only [insertCell]
    split
    · simp
    · simpa [hk] using ih fun c hc => h c (by simp [hc])

theorem readCell_insertCell_other (m : Memory) (a b : Nat) (v : Int) (h : b ≠ a) :
    readCell (insertCell m a v) b = readCell m b := by
  induction m with
  | nil => simp [insertCell, Ne.symm h]
  | cons c m ih =>
    obtain ⟨k, w⟩ := c
    simp only [insertCell]
    split
    · simp [Ne.symm h]
    · simp [ih]

theorem eraseCell_fst_ne (m : Memory) (a : Nat) : ∀ c ∈ eraseCell m a, c.1 ≠ a := by
  induction m with
  | nil => simp [eraseCell]
  | cons c m ih =>
    obtain ⟨k, v⟩ := c
    simp only [eraseCell]
    split
    · exact ih
    · rename_i hk
      exact fun d hd => (List.mem_cons.mp hd).elim (fun h => h ▸ hk) (ih d)

theorem eraseCell_subset (m : Memory) (a : Nat) : ∀ c ∈ eraseCell m a, c ∈ m := by
  induction m with
  | nil => simp [eraseCell]
  | cons c m ih =>
    obtain ⟨k, v⟩ := c
    simp only [eraseCell]
    split
    · exact fun d hd => List.mem_cons_of_mem _ (ih d hd)
    · intro d hd
      rcases List.mem_cons.mp hd with rfl | hd
      · simp
      · exact List.mem_cons_of_mem _ (ih d hd)

theorem mem_insertCell (m : Memory) (a : Nat) (v : Int) (c : Nat × Int) :
    c ∈ insertCell m a v ↔ c = (a, v) ∨ c ∈ m := by
  induction m with
  | nil => simp [insertCell]
  | cons d m ih =>
    obtain ⟨k, w⟩ := d
    simp only [insertCell]
    split
    · simp
    · simp [ih]; tauto

/-- A cell written reads as the value written, in any memory. -/
@[simp] theorem readCell_writeCell_same (m : Memory) (a : Nat) (v : Int) : readCell (writeCell m a v) a = v := by
  unfold writeCell
  split
  · simp [readCell_eraseCell, *]
  · exact readCell_insertCell_same _ _ _ (eraseCell_fst_ne m a)

/-- A write leaves every other cell alone, in any memory. -/
theorem readCell_writeCell_other (m : Memory) (a b : Nat) (v : Int) (h : b ≠ a) :
    readCell (writeCell m a v) b = readCell m b := by
  unfold writeCell
  split
  · simp [readCell_eraseCell, h]
  · rw [readCell_insertCell_other _ _ _ _ h, readCell_eraseCell, if_neg h]

theorem wf_nil : Memory.wf [] := by simp [Memory.wf]

theorem eraseCell_wf {m : Memory} (a : Nat) (h : Memory.wf m) : Memory.wf (eraseCell m a) := by
  refine ⟨?_, fun c hc => h.2 c (eraseCell_subset m a c hc)⟩
  have hs := h.1
  clear h
  induction m with
  | nil => simp [eraseCell]
  | cons c m ih =>
    obtain ⟨k, v⟩ := c
    have ⟨h₁, h₂⟩ := List.pairwise_cons.mp hs
    simp only [eraseCell]
    split
    · exact ih h₂
    · exact List.pairwise_cons.mpr ⟨fun d hd => h₁ d (eraseCell_subset m a d hd), ih h₂⟩

theorem insertCell_wf {m : Memory} {a : Nat} {v : Int} (h : Memory.wf m) (hne : ∀ c ∈ m, c.1 ≠ a)
    (hv : v ≠ blankCell) : Memory.wf (insertCell m a v) := by
  refine ⟨?_, fun c hc => ?_⟩
  · have hs := h.1
    clear h
    induction m with
    | nil => simp [insertCell]
    | cons c m ih =>
      obtain ⟨k, w⟩ := c
      have ⟨h₁, h₂⟩ := List.pairwise_cons.mp hs
      have hk : k ≠ a := hne (k, w) (by simp)
      simp only [insertCell]
      split
      · rename_i hak
        refine List.pairwise_cons.mpr ⟨fun d hd => ?_, hs⟩
        rcases List.mem_cons.mp hd with rfl | hd
        · exact hak
        · exact Nat.lt_trans hak (h₁ d hd)
      · refine List.pairwise_cons.mpr ⟨fun d hd => ?_, ih (fun c hc => hne c (by simp [hc])) h₂⟩
        rcases (mem_insertCell m a v d).mp hd with rfl | hd
        · simp only; omega
        · exact h₁ d hd
  · rcases (mem_insertCell m a v c).mp hc with rfl | hc
    · exact hv
    · exact h.2 c hc

/-- A write keeps the canonical form. -/
theorem writeCell_wf {m : Memory} (a : Nat) (v : Int) (h : Memory.wf m) : Memory.wf (writeCell m a v) := by
  unfold writeCell
  split
  · exact eraseCell_wf a h
  · exact insertCell_wf (eraseCell_wf a h) (eraseCell_fst_ne m a) ‹_›

/-- A write of a cell value to an existing cell keeps every cell in range. -/
theorem writeCell_inRange {m : Memory} {a : Nat} {v : Int} (h : Memory.inRange m) (ha : a ≤ 99)
    (hl : -999 ≤ v) (hu : v ≤ 999) : Memory.inRange (writeCell m a v) := by
  intro c hc
  unfold writeCell at hc
  split at hc
  · exact h c (eraseCell_subset m a c hc)
  · rcases (mem_insertCell _ a v c).mp hc with rfl | hc
    · exact ⟨ha, hl, hu⟩
    · exact h c (eraseCell_subset m a c hc)

/-- Every cell of a memory in range reads as a cell value. -/
theorem readCell_range {m : Memory} (h : Memory.inRange m) (a : Nat) :
    -999 ≤ readCell m a ∧ readCell m a ≤ 999 := by
  induction m with
  | nil => simp [blankCell]
  | cons c m ih =>
    obtain ⟨k, v⟩ := c
    simp only [readCell_cons]
    split
    · exact (h (k, v) (by simp)).2
    · exact ih fun c hc => h c (by simp [hc])

/-- In a memory in range no cell outside 0..99 is listed, so it reads as blank. -/
theorem readCell_outside {m : Memory} (h : Memory.inRange m) {a : Nat} (ha : 99 < a) : readCell m a = blankCell := by
  induction m with
  | nil => rfl
  | cons c m ih =>
    obtain ⟨k, v⟩ := c
    have hk : k ≤ 99 := (h (k, v) (by simp)).1
    rw [readCell_cons, if_neg (by omega)]
    exact ih fun c hc => h c (by simp [hc])

end Sys2Proof.Machine
end

