-- ==== Sys2Proof/Laws/State.lean ====
section
/-! SUPPORT. One lemma per field per update of the state, so that no proof unfolds a record update. -/

namespace Sys2Proof.Machine

/-! ### setPc -/

@[simp] theorem State.setPc_pc (v : Nat) (s : State) : (s.setPc v).pc = v := rfl
@[simp] theorem State.setPc_ir (v : Nat) (s : State) : (s.setPc v).ir = s.ir := rfl
@[simp] theorem State.setPc_acc (v : Nat) (s : State) : (s.setPc v).acc = s.acc := rfl
@[simp] theorem State.setPc_running (v : Nat) (s : State) : (s.setPc v).running = s.running := rfl
@[simp] theorem State.setPc_fault (v : Nat) (s : State) : (s.setPc v).fault = s.fault := rfl
@[simp] theorem State.setPc_mem (v : Nat) (s : State) : (s.setPc v).mem = s.mem := rfl
@[simp] theorem State.setPc_inq (v : Nat) (s : State) : (s.setPc v).inq = s.inq := rfl
@[simp] theorem State.setPc_outq (v : Nat) (s : State) : (s.setPc v).outq = s.outq := rfl
@[simp] theorem State.setPc_params (v : Nat) (s : State) : (s.setPc v).params = s.params := rfl
@[simp] theorem State.setPc_lineRequests (v : Nat) (s : State) : (s.setPc v).lineRequests = s.lineRequests := rfl

/-! ### setIr -/

@[simp] theorem State.setIr_pc (v : Int) (s : State) : (s.setIr v).pc = s.pc := rfl
@[simp] theorem State.setIr_ir (v : Int) (s : State) : (s.setIr v).ir = v := rfl
@[simp] theorem State.setIr_acc (v : Int) (s : State) : (s.setIr v).acc = s.acc := rfl
@[simp] theorem State.setIr_running (v : Int) (s : State) : (s.setIr v).running = s.running := rfl
@[simp] theorem State.setIr_fault (v : Int) (s : State) : (s.setIr v).fault = s.fault := rfl
@[simp] theorem State.setIr_mem (v : Int) (s : State) : (s.setIr v).mem = s.mem := rfl
@[simp] theorem State.setIr_inq (v : Int) (s : State) : (s.setIr v).inq = s.inq := rfl
@[simp] theorem State.setIr_outq (v : Int) (s : State) : (s.setIr v).outq = s.outq := rfl
@[simp] theorem State.setIr_params (v : Int) (s : State) : (s.setIr v).params = s.params := rfl
@[simp] theorem State.setIr_lineRequests (v : Int) (s : State) : (s.setIr v).lineRequests = s.lineRequests := rfl

/-! ### setAcc -/

@[simp] theorem State.setAcc_pc (v : Int) (s : State) : (s.setAcc v).pc = s.pc := rfl
@[simp] theorem State.setAcc_ir (v : Int) (s : State) : (s.setAcc v).ir = s.ir := rfl
@[simp] theorem State.setAcc_acc (v : Int) (s : State) : (s.setAcc v).acc = v := rfl
@[simp] theorem State.setAcc_running (v : Int) (s : State) : (s.setAcc v).running = s.running := rfl
@[simp] theorem State.setAcc_fault (v : Int) (s : State) : (s.setAcc v).fault = s.fault := rfl
@[simp] theorem State.setAcc_mem (v : Int) (s : State) : (s.setAcc v).mem = s.mem := rfl
@[simp] theorem State.setAcc_inq (v : Int) (s : State) : (s.setAcc v).inq = s.inq := rfl
@[simp] theorem State.setAcc_outq (v : Int) (s : State) : (s.setAcc v).outq = s.outq := rfl
@[simp] theorem State.setAcc_params (v : Int) (s : State) : (s.setAcc v).params = s.params := rfl
@[simp] theorem State.setAcc_lineRequests (v : Int) (s : State) : (s.setAcc v).lineRequests = s.lineRequests := rfl

/-! ### setRunning -/

@[simp] theorem State.setRunning_pc (v : Bool) (s : State) : (s.setRunning v).pc = s.pc := rfl
@[simp] theorem State.setRunning_ir (v : Bool) (s : State) : (s.setRunning v).ir = s.ir := rfl
@[simp] theorem State.setRunning_acc (v : Bool) (s : State) : (s.setRunning v).acc = s.acc := rfl
@[simp] theorem State.setRunning_running (v : Bool) (s : State) : (s.setRunning v).running = v := rfl
@[simp] theorem State.setRunning_fault (v : Bool) (s : State) : (s.setRunning v).fault = s.fault := rfl
@[simp] theorem State.setRunning_mem (v : Bool) (s : State) : (s.setRunning v).mem = s.mem := rfl
@[simp] theorem State.setRunning_inq (v : Bool) (s : State) : (s.setRunning v).inq = s.inq := rfl
@[simp] theorem State.setRunning_outq (v : Bool) (s : State) : (s.setRunning v).outq = s.outq := rfl
@[simp] theorem State.setRunning_params (v : Bool) (s : State) : (s.setRunning v).params = s.params := rfl
@[simp] theorem State.setRunning_lineRequests (v : Bool) (s : State) : (s.setRunning v).lineRequests = s.lineRequests := rfl

/-! ### latch -/

@[simp] theorem State.latch_pc (f : Fault) (s : State) : (s.latch f).pc = s.pc := rfl
@[simp] theorem State.latch_ir (f : Fault) (s : State) : (s.latch f).ir = s.ir := rfl
@[simp] theorem State.latch_acc (f : Fault) (s : State) : (s.latch f).acc = s.acc := rfl
@[simp] theorem State.latch_running (f : Fault) (s : State) : (s.latch f).running = s.running := rfl
@[simp] theorem State.latch_fault (f : Fault) (s : State) : (s.latch f).fault = some f := rfl
@[simp] theorem State.latch_mem (f : Fault) (s : State) : (s.latch f).mem = s.mem := rfl
@[simp] theorem State.latch_inq (f : Fault) (s : State) : (s.latch f).inq = s.inq := rfl
@[simp] theorem State.latch_outq (f : Fault) (s : State) : (s.latch f).outq = s.outq := rfl
@[simp] theorem State.latch_params (f : Fault) (s : State) : (s.latch f).params = s.params := rfl
@[simp] theorem State.latch_lineRequests (f : Fault) (s : State) : (s.latch f).lineRequests = s.lineRequests := rfl

/-! ### setMem -/

@[simp] theorem State.setMem_pc (m : Memory) (s : State) : (s.setMem m).pc = s.pc := rfl
@[simp] theorem State.setMem_ir (m : Memory) (s : State) : (s.setMem m).ir = s.ir := rfl
@[simp] theorem State.setMem_acc (m : Memory) (s : State) : (s.setMem m).acc = s.acc := rfl
@[simp] theorem State.setMem_running (m : Memory) (s : State) : (s.setMem m).running = s.running := rfl
@[simp] theorem State.setMem_fault (m : Memory) (s : State) : (s.setMem m).fault = s.fault := rfl
@[simp] theorem State.setMem_mem (m : Memory) (s : State) : (s.setMem m).mem = m := rfl
@[simp] theorem State.setMem_inq (m : Memory) (s : State) : (s.setMem m).inq = s.inq := rfl
@[simp] theorem State.setMem_outq (m : Memory) (s : State) : (s.setMem m).outq = s.outq := rfl
@[simp] theorem State.setMem_params (m : Memory) (s : State) : (s.setMem m).params = s.params := rfl
@[simp] theorem State.setMem_lineRequests (m : Memory) (s : State) : (s.setMem m).lineRequests = s.lineRequests := rfl

/-! ### setInq -/

@[simp] theorem State.setInq_pc (q : List Token) (s : State) : (s.setInq q).pc = s.pc := rfl
@[simp] theorem State.setInq_ir (q : List Token) (s : State) : (s.setInq q).ir = s.ir := rfl
@[simp] theorem State.setInq_acc (q : List Token) (s : State) : (s.setInq q).acc = s.acc := rfl
@[simp] theorem State.setInq_running (q : List Token) (s : State) : (s.setInq q).running = s.running := rfl
@[simp] theorem State.setInq_fault (q : List Token) (s : State) : (s.setInq q).fault = s.fault := rfl
@[simp] theorem State.setInq_mem (q : List Token) (s : State) : (s.setInq q).mem = s.mem := rfl
@[simp] theorem State.setInq_inq (q : List Token) (s : State) : (s.setInq q).inq = q := rfl
@[simp] theorem State.setInq_outq (q : List Token) (s : State) : (s.setInq q).outq = s.outq := rfl
@[simp] theorem State.setInq_params (q : List Token) (s : State) : (s.setInq q).params = s.params := rfl
@[simp] theorem State.setInq_lineRequests (q : List Token) (s : State) : (s.setInq q).lineRequests = s.lineRequests := rfl

/-! ### setOutq -/

@[simp] theorem State.setOutq_pc (q : List Text) (s : State) : (s.setOutq q).pc = s.pc := rfl
@[simp] theorem State.setOutq_ir (q : List Text) (s : State) : (s.setOutq q).ir = s.ir := rfl
@[simp] theorem State.setOutq_acc (q : List Text) (s : State) : (s.setOutq q).acc = s.acc := rfl
@[simp] theorem State.setOutq_running (q : List Text) (s : State) : (s.setOutq q).running = s.running := rfl
@[simp] theorem State.setOutq_fault (q : List Text) (s : State) : (s.setOutq q).fault = s.fault := rfl
@[simp] theorem State.setOutq_mem (q : List Text) (s : State) : (s.setOutq q).mem = s.mem := rfl
@[simp] theorem State.setOutq_inq (q : List Text) (s : State) : (s.setOutq q).inq = s.inq := rfl
@[simp] theorem State.setOutq_outq (q : List Text) (s : State) : (s.setOutq q).outq = q := rfl
@[simp] theorem State.setOutq_params (q : List Text) (s : State) : (s.setOutq q).params = s.params := rfl
@[simp] theorem State.setOutq_lineRequests (q : List Text) (s : State) : (s.setOutq q).lineRequests = s.lineRequests := rfl

/-! ### countRequest -/

@[simp] theorem State.countRequest_pc (s : State) : s.countRequest.pc = s.pc := rfl
@[simp] theorem State.countRequest_ir (s : State) : s.countRequest.ir = s.ir := rfl
@[simp] theorem State.countRequest_acc (s : State) : s.countRequest.acc = s.acc := rfl
@[simp] theorem State.countRequest_running (s : State) : s.countRequest.running = s.running := rfl
@[simp] theorem State.countRequest_fault (s : State) : s.countRequest.fault = s.fault := rfl
@[simp] theorem State.countRequest_mem (s : State) : s.countRequest.mem = s.mem := rfl
@[simp] theorem State.countRequest_inq (s : State) : s.countRequest.inq = s.inq := rfl
@[simp] theorem State.countRequest_outq (s : State) : s.countRequest.outq = s.outq := rfl
@[simp] theorem State.countRequest_params (s : State) : s.countRequest.params = s.params := rfl
@[simp] theorem State.countRequest_lineRequests (s : State) : s.countRequest.lineRequests = s.lineRequests + 1 := rfl

/-! ### outPush, the one queue operation that is not itself an update -/

@[simp] theorem outPush_pc (t : Text) (s : State) : (outPush t s).pc = s.pc := rfl
@[simp] theorem outPush_ir (t : Text) (s : State) : (outPush t s).ir = s.ir := rfl
@[simp] theorem outPush_acc (t : Text) (s : State) : (outPush t s).acc = s.acc := rfl
@[simp] theorem outPush_running (t : Text) (s : State) : (outPush t s).running = s.running := rfl
@[simp] theorem outPush_fault (t : Text) (s : State) : (outPush t s).fault = s.fault := rfl
@[simp] theorem outPush_mem (t : Text) (s : State) : (outPush t s).mem = s.mem := rfl
@[simp] theorem outPush_inq (t : Text) (s : State) : (outPush t s).inq = s.inq := rfl
@[simp] theorem outPush_outq (t : Text) (s : State) : (outPush t s).outq = s.outq ++ [t] := rfl
@[simp] theorem outPush_params (t : Text) (s : State) : (outPush t s).params = s.params := rfl
@[simp] theorem outPush_lineRequests (t : Text) (s : State) : (outPush t s).lineRequests = s.lineRequests := rfl

/-! ### The cell read off an updated state -/

@[simp] theorem State.setPc_cell (v : Nat) (s : State) (a : Nat) : (s.setPc v).cell a = s.cell a := rfl
@[simp] theorem State.setIr_cell (v : Int) (s : State) (a : Nat) : (s.setIr v).cell a = s.cell a := rfl
@[simp] theorem State.setAcc_cell (v : Int) (s : State) (a : Nat) : (s.setAcc v).cell a = s.cell a := rfl
@[simp] theorem State.setRunning_cell (v : Bool) (s : State) (a : Nat) : (s.setRunning v).cell a = s.cell a := rfl
@[simp] theorem State.latch_cell (f : Fault) (s : State) (a : Nat) : (s.latch f).cell a = s.cell a := rfl
@[simp] theorem State.setMem_cell (m : Memory) (s : State) (a : Nat) : (s.setMem m).cell a = readCell m a := rfl
@[simp] theorem State.setInq_cell (q : List Token) (s : State) (a : Nat) : (s.setInq q).cell a = s.cell a := rfl
@[simp] theorem State.setOutq_cell (q : List Text) (s : State) (a : Nat) : (s.setOutq q).cell a = s.cell a := rfl
@[simp] theorem State.countRequest_cell (s : State) (a : Nat) : s.countRequest.cell a = s.cell a := rfl
@[simp] theorem outPush_cell (t : Text) (s : State) (a : Nat) : (outPush t s).cell a = s.cell a := rfl

end Sys2Proof.Machine
end

