-- ==== Sys2Proof/Laws/Ops.lean ====
section
/-! SUPPORT. For each shared operation, everything it can do, once: cite these and do not unfold the operation. -/

namespace Sys2Proof.Machine

/-! ### The Memory Bank -/

@[simp] theorem memRead_nat (a : Nat) (s : State) :
    memRead (a : Int) s = if a ≤ 99 then .ok (s.cell a) else .error (.addressFault a) := by
  unfold memRead
  by_cases h : a ≤ 99
  · rw [if_neg (by simp; omega), if_pos h, Int.toNat_natCast]
  · rw [if_pos (by simp; omega), if_neg h]

@[simp] theorem memWrite_nat (a : Nat) (v : Int) (s : State) :
    memWrite (a : Int) v s =
      if a ≤ 99 then .ok (s.setMem (writeCell s.mem a (trunc3 v))) else .error (.addressFault a) := by
  unfold memWrite
  by_cases h : a ≤ 99
  · rw [if_neg (by simp; omega), if_pos h, Int.toNat_natCast]
  · rw [if_pos (by simp; omega), if_neg h]

/-- MemWrite keeps the memory's canonical form. -/
theorem memWrite_wf {a v : Int} {s t : State} (h : memWrite a v s = .ok t) (hs : Memory.wf s.mem) : Memory.wf t.mem := by
  unfold memWrite at h
  split at h
  · cases h
  · cases h
    exact writeCell_wf _ _ hs

/-- The memory after a full reset is canonical, whatever BOOT_WORD is. -/
theorem powerOn_mem_wf (p : Params) : Memory.wf (State.powerOn p).mem := writeCell_wf 0 p.bootWord wf_nil

/-- The reset state's memory is canonical. -/
theorem reset_mem_wf : Memory.wf State.reset.mem := powerOn_mem_wf Config.params

/-! ### The operand forms -/

/-- Reading at an address 0..99 goes on with the cell's value. -/
theorem withCell_of_le {a : Nat} (h : a ≤ 99) (s : State) (k : Int → Result) : withCell a s k = k (s.cell a) := by
  simp [withCell, h]

/-- Reading at any other address takes AddressFault. -/
theorem withCell_of_gt {a : Nat} (h : 99 < a) (s : State) (k : Int → Result) :
    withCell a s k = raise (.addressFault a) s := by
  simp [withCell, Nat.not_le.mpr h]

/-- Writing at an address 0..99 goes on with the cell holding trunc3 of the value. -/
theorem storing_of_le {a : Nat} (h : a ≤ 99) (v : Int) (s : State) (k : State → Result) :
    storing a v s k = k (s.setMem (writeCell s.mem a (trunc3 v))) := by
  simp [storing, h]

/-- Writing at any other address takes AddressFault, with nothing written. -/
theorem storing_of_gt {a : Nat} (h : 99 < a) (v : Int) (s : State) (k : State → Result) :
    storing a v s k = raise (.addressFault a) s := by
  simp [storing, Nat.not_le.mpr h]

/-! ### The queues -/

/-- If InPop answers, the token is the queue's front, which is gone, or it is the line provider's free answer. -/
theorem inPop_cases {s s' : State} {t : Token} (h : inPop s = some (t, s')) :
    (∃ rest, s.inq = t :: rest ∧ s' = s.setInq rest) ∨
      (s.inq = [] ∧ s.params.lineProvider = true ∧ t = Config.lineAnswer s.lineRequests ∧ s' = s.countRequest) := by
  unfold inPop at h
  split at h
  · rename_i x rest hq
    simp only [Option.some.injEq, Prod.mk.injEq] at h
    obtain ⟨rfl, rfl⟩ := h
    exact .inl ⟨rest, hq, rfl⟩
  · split at h
    · simp only [Option.some.injEq, Prod.mk.injEq] at h
      obtain ⟨rfl, rfl⟩ := h
      exact .inr ⟨‹_›, ‹_›, rfl, rfl⟩
    · cases h

/-- InPop does not answer only on an empty queue with no line provider. -/
theorem inPop_none_iff (s : State) : inPop s = none ↔ s.inq = [] ∧ s.params.lineProvider = false := by
  unfold inPop
  cases hq : s.inq <;> cases hl : s.params.lineProvider <;> simp

/-! ### Decoding -/

/-- The decoder in plain arithmetic. -/
theorem decode_eq (w : Int) :
    decode w = match lookupHandler (w / 100) (w % 100).toNat with
      | some i => .ok i
      | none => .error (.noHandler (w / 100) w) := by
  cases h : lookupHandler (w / 100) (w % 100).toNat <;>
    simp only [decode, opcodeOf, operandOf, floorDiv_hundred, floorMod_hundred, h]

/-- The opcode map has an entry for the ten digits only. -/
theorem opcodeMap_none {d n : Nat} (h : 9 < d) : opcodeMap d n = none := by
  unfold opcodeMap
  split <;> first | omega | rfl

/-- The opcode map gives well-formed instructions with the opcode and operand it was given. -/
theorem opcodeMap_spec {d n : Nat} {i : Instr} (hn : n ≤ 99) (h : opcodeMap d n = some i) :
    d ≤ 9 ∧ i.wf = true ∧ i.opcode = d ∧ i.operand = n := by
  unfold opcodeMap at h
  split at h <;> cases h <;>
    refine ⟨by decide, decide_eq_true ?_, rfl, ?_⟩ <;> (try simp only [Instr.operand, leftCount, rightCount]) <;> omega

/-- If a word decodes, it is in 0..999 and the instruction is well formed with the word's digits. -/
theorem decode_ok {w : Int} {i : Instr} (h : decode w = .ok i) :
    0 ≤ w ∧ w ≤ 999 ∧ i.wf = true ∧ (i.opcode : Int) = w / 100 ∧ (i.operand : Int) = w % 100 := by
  rw [decode_eq] at h
  split at h
  · rename_i j hj
    cases h
    unfold lookupHandler at hj
    split at hj
    · cases hj
    · obtain ⟨h₁, h₂, h₃, h₄⟩ := opcodeMap_spec (by omega) hj
      exact ⟨by omega, by omega, h₂, by omega, by omega⟩
  · cases h

/-- A rejection names the word and its opcode, and the word is outside 0..999. -/
theorem decode_error {w op x : Int} (h : decode w = .error (.noHandler op x)) :
    op = w / 100 ∧ x = w ∧ (w < 0 ∨ 999 < w) := by
  rw [decode_eq] at h
  split at h
  · cases h
  · rename_i hj
    cases h
    refine ⟨rfl, rfl, ?_⟩
    by_contra hc
    unfold lookupHandler at hj
    rw [if_neg (by omega)] at hj
    obtain ⟨d, hd⟩ : ∃ d : Nat, w / 100 = d := ⟨(w / 100).toNat, by omega⟩
    rw [hd, Int.toNat_natCast] at hj
    have : d ≤ 9 := by omega
    interval_cases d <;> simp [opcodeMap] at hj

/-! ### The stages of a step before its handler -/

/-- The PC advance below cell 99. -/
theorem advance_of_le {s : State} (h : s.pc ≤ 98) : advance s = .ok (s.setPc (s.pc + 1)) :=
  if_neg (Nat.not_lt.mpr (Nat.succ_le_succ h))

/-- The PC advance at cell 99 and above. -/
theorem advance_of_ge {s : State} (h : 99 ≤ s.pc) : advance s = .error (.addressFault ((s.pc + 1 : Nat) : Int)) :=
  if_pos (Nat.lt_succ_of_le h)

/-- Everything the stages before the handler can do at a PC in 0..99 (R82 to R86, R165). -/
theorem fetchDecode_cases (s : State) (hpc : s.pc ≤ 99) :
    (s.pc = 99 ∧ fetchDecode s = .raised (.addressFault 100) (s.setIr (s.cell 99))) ∨
      (s.pc ≤ 98 ∧ (s.cell s.pc < 0 ∨ 999 < s.cell s.pc) ∧
        fetchDecode s = .raised (.opcodeFault (s.cell s.pc / 100) (s.cell s.pc))
          ((s.setIr (s.cell s.pc)).setPc (s.pc + 1))) ∨
      (s.pc ≤ 98 ∧ ∃ i, decode (s.cell s.pc) = .ok i ∧
        fetchDecode s = .ready i ((s.setIr (s.cell s.pc)).setPc (s.pc + 1))) := by
  by_cases h99 : s.pc = 99
  · left
    have hf : fetch s = .ok (s.setIr (s.cell 99)) := by simp only [fetch, memRead_nat, h99]; rfl
    refine ⟨h99, ?_⟩
    simp only [fetchDecode, hf, advance_of_ge (s := s.setIr (s.cell 99)) (by simp [h99]), State.setIr_pc, h99]
    rfl
  · right
    have h98 : s.pc ≤ 98 := by omega
    have hf : fetch s = .ok (s.setIr (s.cell s.pc)) := by simp [fetch, hpc]
    have ha : advance (s.setIr (s.cell s.pc)) = .ok ((s.setIr (s.cell s.pc)).setPc (s.pc + 1)) :=
      advance_of_le (s := s.setIr (s.cell s.pc)) h98
    have hs : fetchDecode s = decodeStage ((s.setIr (s.cell s.pc)).setPc (s.pc + 1)) := by
      simp only [fetchDecode, hf, ha]
    rw [hs]
    unfold decodeStage
    simp only [State.setPc_ir, State.setIr_ir]
    cases hd : decode (s.cell s.pc) with
    | ok i => exact .inr ⟨h98, i, rfl, rfl⟩
    | error r =>
      obtain ⟨op, w⟩ := r
      obtain ⟨rfl, rfl, hw⟩ := decode_error hd
      exact .inl ⟨h98, hw, rfl⟩

/-- Outside 0..99, where no run comes, the fetch itself raises AddressFault and nothing has been written. -/
theorem fetchDecode_outside (s : State) (hpc : 99 < s.pc) : fetchDecode s = .raised (.addressFault s.pc) s := by
  simp [fetchDecode, fetch, Nat.not_le.mpr hpc]

end Sys2Proof.Machine
end

