-- ==== Sys2Proof/Laws/Step.lean ====
section
/-! SUPPORT. Everything a step can do: the stages before the handler, and the handlers as plain next states. -/

namespace Sys2Proof.Machine

/-! ### The handlers on operands the encoding can spell -/

/-- The next state of INP with the token `t` taken from `s₁`. -/
theorem execInp_of_pop {s s₁ : State} {t : Token} {a : Nat} (ha : a ≤ 99) (h : inPop s = some (t, s₁)) :
    exec (.inp a) s = .next (s₁.setMem (writeCell s₁.mem a (trunc3 (parse t)))) := by
  simp [exec, execInp, h, storing_of_le ha]

/-- INP that finds no token does not happen. -/
theorem execInp_stuck {s : State} {a : Nat} (h : inPop s = none) : exec (.inp a) s = .refused .noLineProvider := by
  simp [exec, execInp, h]

/-- What a handler does when it answers a next state, for each instruction the encoding can spell: the accumulator alone,
the PC alone, one cell, one text, or the register reset. -/
theorem exec_cases {i : Instr} {s t : State} (hi : i.wf = true) (h : exec i s = .next t) :
    (∃ a s₁ x, i = .inp a ∧ a ≤ 99 ∧ inPop s = some (x, s₁) ∧
        t = s₁.setMem (writeCell s₁.mem a (trunc3 (parse x)))) ∨
      ((i.opcode = 1 ∨ i.opcode = 2 ∨ i.opcode = 4 ∨ i.opcode = 7) ∧ ∃ v, t = s.setAcc v) ∨
      (∃ n, i = .tac n ∧ n ≤ 99 ∧ t = if s.acc < 0 then s.setPc n else s) ∨
      (∃ a, i = .out a ∧ a ≤ 99 ∧ t = outPush (fmt3 (s.cell a)) s) ∨
      (∃ a, i = .sto a ∧ a ≤ 99 ∧ t = s.setMem (writeCell s.mem a (trunc3 s.acc))) ∨
      (∃ n v, i = .jmp n ∧ n ≤ 99 ∧ v = trunc3 ((s.pc + 800 : Nat) : Int) ∧
        t = (s.setMem (writeCell s.mem 99 v)).setPc n) ∨
      (∃ n, i = .hrs n ∧ t = (((s.setPc 0).setIr 0).setAcc 0).setRunning false) := by
  cases i with
  | inp a =>
    have ha : a ≤ 99 := of_decide_eq_true hi
    cases hp : inPop s with
    | none => simp [execInp_stuck hp] at h
    | some p =>
      obtain ⟨x, s₁⟩ := p
      rw [execInp_of_pop ha hp] at h
      cases h
      exact .inl ⟨a, s₁, x, rfl, ha, rfl, rfl⟩
  | cla a =>
    simp only [exec, execCla, withCell_of_le (of_decide_eq_true hi)] at h
    cases h
    exact .inr (.inl ⟨by simp [Instr.opcode], _, rfl⟩)
  | add a =>
    simp only [exec, execAdd, withCell_of_le (of_decide_eq_true hi)] at h
    cases h
    exact .inr (.inl ⟨by simp [Instr.opcode], _, rfl⟩)
  | tac n =>
    refine .inr (.inr (.inl ⟨n, rfl, of_decide_eq_true hi, ?_⟩))
    simp only [exec, execTac, accNegative, branchTo] at h
    cases h
    simp
  | sft x y =>
    simp only [exec, execSft] at h
    cases h
    exact .inr (.inl ⟨by simp [Instr.opcode], _, rfl⟩)
  | out a =>
    have ha : a ≤ 99 := of_decide_eq_true hi
    simp only [exec, execOut, withCell_of_le ha] at h
    cases h
    exact .inr (.inr (.inr (.inl ⟨a, rfl, ha, rfl⟩)))
  | sto a =>
    have ha : a ≤ 99 := of_decide_eq_true hi
    simp only [exec, execSto, storing_of_le ha] at h
    cases h
    exact .inr (.inr (.inr (.inr (.inl ⟨a, rfl, ha, rfl⟩))))
  | sub a =>
    simp only [exec, execSub, withCell_of_le (of_decide_eq_true hi)] at h
    cases h
    exact .inr (.inl ⟨by simp [Instr.opcode], _, rfl⟩)
  | jmp n =>
    simp only [exec, execJmp, storing_of_le (Nat.le_refl 99), branchTo] at h
    cases h
    exact .inr (.inr (.inr (.inr (.inr (.inl ⟨n, _, rfl, of_decide_eq_true hi, rfl, rfl⟩)))))
  | hrs n =>
    simp only [exec, execHrs] at h
    cases h
    exact .inr (.inr (.inr (.inr (.inr (.inr ⟨n, rfl, rfl⟩)))))

/-! ### The step -/

/-- A latched fault refuses the step. -/
theorem step_of_fault {s : State} {f : Fault} (h : s.fault = some f) : step s = .refused (.faultLatched f) := by
  simp [step, h]

/-- Without a latched fault the step is its stages and then the handler. -/
theorem step_of_clear {s : State} (h : s.fault = none) :
    step s = match fetchDecode s with
      | .raised f s₁ => raise f s₁
      | .ready i s₁ => exec i s₁ := by
  cases hd : fetchDecode s <;> simp only [step, h, hd]

/-- Everything a step with a next state can be, at a PC in 0..99: the AddressFault of the advance, an OpcodeFault, or the
handler of the decoded instruction in the post-fetch state. -/
theorem step_cases {s t : State} (hpc : s.pc ≤ 99) (h : step s = .next t) :
    s.fault = none ∧
      ((s.pc = 99 ∧ t = (s.setIr (s.cell 99)).latch (.addressFault 100)) ∨
        (s.pc ≤ 98 ∧ (s.cell s.pc < 0 ∨ 999 < s.cell s.pc) ∧
          t = ((s.setIr (s.cell s.pc)).setPc (s.pc + 1)).latch (.opcodeFault (s.cell s.pc / 100) (s.cell s.pc))) ∨
        (s.pc ≤ 98 ∧ ∃ i, decode (s.cell s.pc) = .ok i ∧
          exec i ((s.setIr (s.cell s.pc)).setPc (s.pc + 1)) = .next t)) := by
  cases hf : s.fault with
  | some f => simp [step_of_fault hf] at h
  | none =>
    refine ⟨rfl, ?_⟩
    rw [step_of_clear hf] at h
    rcases fetchDecode_cases s hpc with ⟨h₁, h₂⟩ | ⟨h₁, h₂, h₃⟩ | ⟨h₁, i, h₂, h₃⟩
    · rw [h₂] at h
      cases h
      exact .inl ⟨h₁, rfl⟩
    · rw [h₃] at h
      cases h
      exact .inr (.inl ⟨h₁, h₂, rfl⟩)
    · rw [h₃] at h
      exact .inr (.inr ⟨h₁, i, h₂, h⟩)

end Sys2Proof.Machine
end

