-- ==== Sys2Proof/Laws/Boundary.lean ====
section
/-! SUPPORT. For the host's operations and the run loop, what each can do, once. -/

namespace Sys2Proof.Machine

/-! ### The phase and the result text -/

theorem phase_eq_idle {s : State} : phase s = .idle ↔ s.fault = none ∧ s.running = false := by
  cases hf : s.fault <;> cases hr : s.running <;> simp [phase, hf, hr]

theorem phase_eq_running {s : State} : phase s = .running ↔ s.fault = none ∧ s.running = true := by
  cases hf : s.fault <;> cases hr : s.running <;> simp [phase, hf, hr]

/-- The result text is the texts joined with one newline between neighbours. -/
theorem resultText_eq_intercalate (texts : List Text) : resultText texts = ['\n'].intercalate texts := by
  induction texts with
  | nil => rfl
  | cons t rest ih =>
    cases rest with
    | nil => simp [resultText, List.intercalate]
    | cons u rest => simp [resultText, ih, List.intercalate]

/-! ### The line request -/

/-- A step asks for a line exactly when it is an INP, not prevented by a fault, that finds the queue empty. -/
theorem needsLine_iff {s : State} (hpc : s.pc ≤ 99) :
    needsLine s = true ↔
      s.inq = [] ∧ s.fault = none ∧ s.pc ≤ 98 ∧ ∃ a, decode (s.cell s.pc) = .ok (.inp a) := by
  unfold needsLine
  rcases fetchDecode_cases s hpc with ⟨h₁, h₂⟩ | ⟨h₁, h₃, h₂⟩ | ⟨h₁, j, hj, h₂⟩ <;> rw [h₂]
  · simp
    omega
  · have hno : ∀ a, decode (s.cell s.pc) ≠ .ok (.inp a) := fun a ha => by
      have := decode_ok ha
      omega
    simp [hno]
  · cases j <;> simp [hj, h₁]

/-! ### The engine's move in a run -/

/-- In a run, a step that needs no line is settled as the loop's pass. -/
theorem engineMove_of_step {s t : State} (hf : s.fault = none) (hr : s.running = true) (hn : needsLine s = false)
    (h : step s = .next t) : engineMove ⟨s, false⟩ = settleInRun t := by
  simp [engineMove, phase_eq_running.mpr ⟨hf, hr⟩, beginStep, hn, h, settleStep, settle]

theorem settleInRun_of_fault {t : State} {f : Fault} (h : t.fault = some f) :
    settleInRun t = .done ⟨t, false⟩ .nothing (some (.fault f)) := by
  simp [settleInRun, afterStep, h]

theorem settleInRun_of_halted {t : State} (h : t.fault = none) (hr : t.running = false) :
    settleInRun t = .done ⟨flushed t, false⟩ .nothing (some (.result (resultText t.outq))) := by
  simp [settleInRun, afterStep, h, hr]

theorem settleInRun_of_running {t : State} (h : t.fault = none) (hr : t.running = true) :
    settleInRun t = .done ⟨t, false⟩ .nothing none := by
  simp [settleInRun, afterStep, h, hr]

/-! ### The host's single step -/

/-- In the Idle phase, a step that needs no line is the host's Step, with what it hands back. -/
theorem hostStep_of_step {s t : State} (hf : s.fault = none) (hr : s.running = false) (hn : needsLine s = false)
    (h : step s = .next t) : hostOp .step ⟨s, false⟩ = settleSingle t := by
  simp [hostOp, phase_eq_idle.mpr ⟨hf, hr⟩, beginStep, hn, h, settleStep, settle]

theorem settleSingle_of_clear {t : State} (h : t.fault = none) : settleSingle t = .done ⟨t, false⟩ .nothing none := by
  simp [settleSingle, h]

theorem settleSingle_of_fault {t : State} {f : Fault} (h : t.fault = some f) :
    settleSingle t = .done ⟨t, false⟩ (.fault f) none := by
  simp [settleSingle, h]

/-! ### The loop and the engine's moves -/

/-- The state at the end of a run, or where it stands. -/
def endState (e : RunEnd) : State :=
  match e with
  | .halted s _ => s
  | .stopped s _ => s
  | .faulted s _ => s
  | .notEnded s => s

/-- One pass of the loop whose step happens. -/
theorem runLoop_of_next {s t : State} (k : Nat) {stop : Option Nat} (hs : stop ≠ some 0) (h : step s = .next t) :
    runLoop (k + 1) stop s = match afterStep t with
      | .faulted f => .faulted t f
      | .halted => .halted (flushed t) (resultText t.outq)
      | .goesOn => runLoop k (stop.map Nat.pred) t := by
  cases ha : afterStep t <;> simp only [runLoop, if_neg hs, h, ha]

/-- One pass of the loop is the engine's move: a move that ends no run is followed by the loop from its state, and one that
ends the run gives the loop's end state and what it hands back. -/
theorem runLoop_eq_engineMove {s t : State} (k : Nat) {stop : Option Nat} (hf : s.fault = none) (hr : s.running = true)
    (hs : stop ≠ some 0) (hn : needsLine s = false) (h : step s = .next t) :
    ∃ u ended, engineMove ⟨s, false⟩ = .done ⟨u, false⟩ .nothing ended ∧
      ((ended = none ∧ runLoop (k + 1) stop s = runLoop k (stop.map Nat.pred) u) ∨
        (ended ≠ none ∧ runReturn (runLoop (k + 1) stop s) = ended ∧ endState (runLoop (k + 1) stop s) = u)) := by
  rw [engineMove_of_step hf hr hn h, runLoop_of_next k hs h]
  cases ht : t.fault with
  | some f => exact ⟨t, _, settleInRun_of_fault ht, .inr (by simp [afterStep, ht, runReturn, endState])⟩
  | none =>
    cases hrt : t.running with
    | true => exact ⟨t, _, settleInRun_of_running ht hrt, .inl (by simp [afterStep, ht, hrt])⟩
    | false =>
      exact ⟨flushed t, _, settleInRun_of_halted ht hrt, .inr (by simp [afterStep, ht, hrt, runReturn, endState])⟩

/-- A Stop that is due is the host's Stop: the same state, and the same return of Run. -/
theorem runLoop_eq_stop {s : State} (k : Nat) (hf : s.fault = none) (hr : s.running = true) :
    hostOp .stop ⟨s, false⟩ = .done ⟨endState (runLoop (k + 1) (some 0) s), false⟩ .nothing
      (runReturn (runLoop (k + 1) (some 0) s)) := by
  simp [hostOp, phase_eq_running.mpr ⟨hf, hr⟩, runLoop, runReturn, endState]

end Sys2Proof.Machine
end

