-- ==== Sys2Proof/Laws/PerInstr.lean ====
section
/-! SUPPORT. A statement about every instruction as syntax, one lemma per constructor: a well-formed instruction's word has
its opcode and its operand as its digits (R61, R62). -/

namespace Sys2Proof.Laws.WordDigits

/-- The word of a well-formed instruction is in 0..999, its quotient by 100 is the opcode and its remainder the operand. -/
def Statement (i : Instr) : Prop :=
  i.wf = true → 0 ≤ encode i ∧ encode i ≤ 999 ∧ opcodeOf (encode i) = i.opcode ∧ operandOf (encode i) = i.operand

/-- The digits of 100 × d + n for a digit d and n in 0..99. -/
theorem digits_of_word {d n : Nat} (hd : d ≤ 9) (hn : n ≤ 99) :
    0 ≤ ((100 * d + n : Nat) : Int) ∧ ((100 * d + n : Nat) : Int) ≤ 999 ∧
      opcodeOf ((100 * d + n : Nat) : Int) = d ∧ operandOf ((100 * d + n : Nat) : Int) = n := by
  simp only [opcodeOf, operandOf, Machine.floorDiv_hundred, Machine.floorMod_hundred]
  omega

/-- An opcode is one digit. -/
theorem opcode_le (i : Instr) : i.opcode ≤ 9 := by cases i <;> simp [Instr.opcode]

theorem inp (a : Nat) : Statement (.inp a) := fun h => digits_of_word (opcode_le _) (of_decide_eq_true h)
theorem cla (a : Nat) : Statement (.cla a) := fun h => digits_of_word (opcode_le _) (of_decide_eq_true h)
theorem add (a : Nat) : Statement (.add a) := fun h => digits_of_word (opcode_le _) (of_decide_eq_true h)
theorem tac (t : Nat) : Statement (.tac t) := fun h => digits_of_word (opcode_le _) (of_decide_eq_true h)
theorem sft (x y : Nat) : Statement (.sft x y) := fun h =>
  digits_of_word (opcode_le _) (by have := of_decide_eq_true h; simp only [Instr.operand]; omega)
theorem out (a : Nat) : Statement (.out a) := fun h => digits_of_word (opcode_le _) (of_decide_eq_true h)
theorem sto (a : Nat) : Statement (.sto a) := fun h => digits_of_word (opcode_le _) (of_decide_eq_true h)
theorem sub (a : Nat) : Statement (.sub a) := fun h => digits_of_word (opcode_le _) (of_decide_eq_true h)
theorem jmp (t : Nat) : Statement (.jmp t) := fun h => digits_of_word (opcode_le _) (of_decide_eq_true h)
theorem hrs (n : Nat) : Statement (.hrs n) := fun h => digits_of_word (opcode_le _) (of_decide_eq_true h)

end Sys2Proof.Laws.WordDigits
end

