-- ==== Sys2Proof/Laws/Registry.lean ====
section
/-! SUPPORT. For each registry check, when it passes and what it reports. -/

namespace Sys2Proof.Machine

theorem mem_opcodeNumbers {n : Int} : n ∈ opcodeNumbers ↔ 0 ≤ n ∧ n ≤ 9 := by
  simp only [opcodeNumbers, List.mem_cons, List.not_mem_nil, or_false]
  omega

theorem validOpcode_iff {d : DeclaredOpcode} : validOpcode d = true ↔ ∃ n : Int, d = .number n ∧ 0 ≤ n ∧ n ≤ 9 := by
  cases d <;> simp [validOpcode]

theorem missingGroup_eq_none {groups : List Group} :
    missingGroup groups = none ↔ ∀ name, ∃ g ∈ groups, g.name = name := by
  simp only [missingGroup, List.find?_eq_none]
  refine ⟨fun h name => ?_, fun h name _ => ?_⟩
  · simpa using h name (by cases name <;> simp)
  · simpa using h name

theorem missingGroup_eq_some {groups : List Group} {name : GroupName} (h : missingGroup groups = some name) :
    ∀ g ∈ groups, g.name ≠ name := by
  simpa using List.find?_some h

theorem invalidOpcode_eq_none {groups : List Group} :
    invalidOpcode groups = none ↔ ∀ g ∈ groups, ∀ d ∈ g.opcodes, ∃ n : Int, d = .number n ∧ 0 ≤ n ∧ n ≤ 9 := by
  simp only [invalidOpcode, List.find?_eq_none, List.mem_flatMap, Bool.not_eq_true', Bool.not_eq_false, validOpcode_iff]
  exact ⟨fun h g hg d hd => h d ⟨g, hg, hd⟩, fun h d ⟨g, hg, hd⟩ => h g hg d hd⟩

theorem invalidOpcode_eq_some {groups : List Group} {d : DeclaredOpcode} (h : invalidOpcode groups = some d) :
    (∃ g ∈ groups, d ∈ g.opcodes) ∧ validOpcode d = false :=
  ⟨List.mem_flatMap.mp (List.mem_of_find?_eq_some h), by simpa using List.find?_some h⟩

theorem duplicateOpcode_eq_none {groups : List Group} :
    duplicateOpcode groups = none ↔ ∀ n : Int, 0 ≤ n → n ≤ 9 → groups.countP (declares n) ≤ 1 := by
  simp only [duplicateOpcode, List.find?_eq_none, mem_opcodeNumbers, decide_eq_true_eq]
  exact ⟨fun h n h₀ h₉ => by have := h n ⟨h₀, h₉⟩; omega, fun h n hn => by have := h n hn.1 hn.2; omega⟩

theorem duplicateOpcode_eq_some {groups : List Group} {n : Int} (h : duplicateOpcode groups = some n) :
    0 ≤ n ∧ n ≤ 9 ∧ 2 ≤ groups.countP (declares n) :=
  ⟨(mem_opcodeNumbers.mp (List.mem_of_find?_eq_some h)).1, (mem_opcodeNumbers.mp (List.mem_of_find?_eq_some h)).2,
    by simpa using List.find?_some h⟩

/-- A number that some groups declare stands among their declarations. -/
theorem declared_of_countP {groups : List Group} {n : Int} (h : 0 < groups.countP (declares n)) :
    ∃ g ∈ groups, DeclaredOpcode.number n ∈ g.opcodes := by
  simpa [declares] using List.countP_pos_iff.mp h

end Sys2Proof.Machine
end

