-- ==== Sys2Proof/Tests/Slice0.lean ====
section
/-! SUPPORT. Tests with expected results from spec/95_test_vectors.md (named beside each), and for every statement with
hypotheses a concrete state and operands that meet them. -/

namespace Sys2Proof.Tests

open Sys2Proof.Machine

/-! ### Helpers -/

/-- The next state of an answer. -/
def nextOf (r : Result) : Option State :=
  match r with
  | .next s => some s
  | _ => none

/-- A state with the given PC, accumulator and memory, the registers and queues else as after a full reset. -/
def sample (pc : Nat) (acc : Int) (mem : Memory) : State :=
  { State.powerOn Config.params with pc := pc, acc := acc, mem := mem }

/-- The same with an input queue. -/
def sampleIn (pc : Nat) (mem : Memory) (inq : List Token) : State := { sample pc 0 mem with inq := inq }

/-- A state in a run. -/
def inRun (s : State) : State := { s with running := true }

/-- A token without a sign. -/
def plain (first : Digit) (rest : List Digit) : Token := { sign := none, first := first, rest := rest }

/-- A negative token. -/
def negative (first : Digit) (rest : List Digit) : Token := { sign := some .minus, first := first, rest := rest }

/-! ### Well-formedness: an ill-formed term for each check -/

theorem test_wf_inp : (Instr.inp 100).wf = false := by decide
theorem test_wf_cla : (Instr.cla 100).wf = false := by decide
theorem test_wf_add : (Instr.add 100).wf = false := by decide
theorem test_wf_tac : (Instr.tac 100).wf = false := by decide
theorem test_wf_sft : (Instr.sft 10 0).wf = false ∧ (Instr.sft 0 10).wf = false := by decide
theorem test_wf_out : (Instr.out 100).wf = false := by decide
theorem test_wf_sto : (Instr.sto 100).wf = false := by decide
theorem test_wf_sub : (Instr.sub 100).wf = false := by decide
theorem test_wf_jmp : (Instr.jmp 100).wf = false := by decide
theorem test_wf_hrs : (Instr.hrs 100).wf = false := by decide
theorem test_wf_good : (Instr.inp 99).wf = true ∧ (Instr.sft 9 9).wf = true := by decide

/-! ### Decoding: a word of each constructor, written from its digits (R61, R64; 2.3 to 2.6) -/

theorem test_decode_inp : decodeTableWord 16 010 = some (.inp 10) := by decide
theorem test_decode_cla : decodeTableWord 16 115 = some (.cla 15) := by decide
theorem test_decode_add : decodeTableWord 16 206 = some (.add 6) := by decide
theorem test_decode_tac : decodeTableWord 16 304 = some (.tac 4) := by decide
theorem test_decode_sft : decodeTableWord 16 423 = some (.sft 2 3) := by decide
theorem test_decode_out : decodeTableWord 16 510 = some (.out 10) := by decide
theorem test_decode_sto : decodeTableWord 16 622 = some (.sto 22) := by decide
theorem test_decode_sub : decodeTableWord 16 711 = some (.sub 11) := by decide
theorem test_decode_jmp : decodeTableWord 16 899 = some (.jmp 99) := by decide
theorem test_decode_hrs : decodeTableWord 16 957 = some (.hrs 57) := by decide
theorem test_encode_sft : encode (.sft 2 3) = 423 := by decide

/-! ### Numbers and texts (2.1) -/

theorem test_floor : floorDiv (-999) 100 = -10 ∧ floorMod (-999) 100 = 1 := by decide
theorem test_trunc3 : trunc3 (-1998) = -998 ∧ trunc3 10000 = 0 := by decide
theorem test_fmt3 : fmt3 (-5) = ['-', '0', '0', '5'] ∧ fmt3 999 = ['9', '9', '9'] := by decide
theorem test_parse_plus : (tokenOfText ['+', '7']).map parse = some 7 := by decide
theorem test_parse_long : (tokenOfText ['1', '2', '3', '4']).map parse = some 1234 := by decide
theorem test_parse_abc : tokenOfText ['a', 'b', 'c'] = none ∧ tokenOfText ['-'] = none ∧ tokenOfText [] = none := by decide

/-! ### Memory (2.2) -/

theorem test_mem_outside : memRead 100 State.reset = .error (.addressFault 100) ∧
    memRead (-1) State.reset = .error (.addressFault (-1)) := ⟨rfl, rfl⟩
theorem test_mem_boot : State.reset.cell 0 = 1 ∧ State.reset.cell 50 = 0 := by decide
theorem test_mem_canonical : writeCell (writeCell [(0, 1)] 5 7) 5 0 = [(0, 1)] := by decide
theorem test_mem_sorted : writeCell [(0, 1), (9, 2)] 5 7 = [(0, 1), (5, 7), (9, 2)] := by decide

/-! ### Instructions: one step each (2.4 to 2.6) -/

/-- V-CLA-1. -/
theorem test_cla : (nextOf (step (sample 20 7 [(15, -42), (20, 115)]))).map (fun t => (t.acc, t.pc)) = some (-42, 21) := by
  decide
/-- V-CLA-3: CLA reads its own word. -/
theorem test_cla_own : (nextOf (step (sample 20 0 [(20, 120)]))).map State.acc = some 120 := by decide
/-- V-ADD-1, source S3. -/
theorem test_add : (nextOf (step (sample 20 5 [(6, 3), (20, 206)]))).map (fun t => (t.acc, t.ir)) = some (8, 206) := by
  decide
/-- V-ADD-2: no wrap. -/
theorem test_add_no_wrap : (nextOf (step (sample 20 9999 [(6, 1), (20, 206)]))).map State.acc = some 10000 := by decide
/-- V-SUB-3: no wrap. -/
theorem test_sub : (nextOf (step (sample 20 (-9999) [(11, 999), (20, 711)]))).map State.acc = some (-10998) := by decide
/-- Source S5. -/
theorem test_sft : (nextOf (step (sample 20 1 [(20, 423)]))).map State.acc = some 0 := by decide
/-- The SFT vectors -1234 with 412, and 123456 with 401. -/
theorem test_sft_negative : (nextOf (step (sample 20 (-1234) [(20, 412)]))).map State.acc = some 76 ∧
    (nextOf (step (sample 20 123456 [(20, 401)]))).map State.acc = some 12345 := by decide
/-- V-STO-3. -/
theorem test_sto : (nextOf (step (sample 20 (-1234) [(20, 622)]))).map (fun t => t.cell 22) = some (-234) := by decide
/-- V-STO-5: a store into its own cell leaves IR. -/
theorem test_sto_own : (nextOf (step (sample 20 5 [(20, 620)]))).map (fun t => (t.cell 20, t.ir, t.pc)) = some (5, 620, 21) := by
  decide
/-- V-INP-2. -/
theorem test_inp : (nextOf (step (sampleIn 20 [(20, 10)] [plain 1 [2, 3, 4], plain 5 []]))).map
    (fun t => (t.cell 10, t.inq)) = some (234, [plain 5 []]) := by decide
/-- V-INP-7: no provider, no step. -/
theorem test_inp_stuck : step { sampleIn 20 [(20, 10)] [] with params := ⟨1, false⟩ } = .refused .noLineProvider := rfl
/-- V-OUT-2. -/
theorem test_out : (nextOf (step (sample 20 0 [(10, -42), (20, 510)]))).map State.outq = some [['-', '0', '4', '2']] := by
  decide
/-- V-OUT-5: OUT reads its own word. -/
theorem test_out_own : (nextOf (step (sample 20 0 [(20, 520)]))).map State.outq = some [['5', '2', '0']] := by decide
/-- V-TAC-1 and V-TAC-2, source S4. -/
theorem test_tac : (nextOf (step (sample 20 (-1) [(20, 304)]))).map State.pc = some 4 ∧
    (nextOf (step (sample 20 0 [(20, 304)]))).map State.pc = some 21 := by decide
/-- V-JMP-3. -/
theorem test_jmp : (nextOf (step (sample 98 0 [(98, 810)]))).map (fun t => (t.cell 99, t.pc)) = some (899, 10) := by decide
/-- V-HRS-2: the operand is ignored. -/
theorem test_hrs : (nextOf (step { sample 20 3 [(20, 957)] with running := true })).map
    (fun t => (t.pc, t.ir, t.acc, t.running)) = some (0, 0, 0, false) := by decide

/-! ### Faults (2.7) and the host (2.5, 2.8, 2.9) -/

/-- V-STEP-3. -/
theorem test_address_fault : (nextOf (step (sample 99 5 [(99, 806)]))).map (fun t => (t.fault, t.pc, t.ir, t.acc)) =
    some (some (.addressFault 100), 99, 806, 5) := by decide
/-- V-STEP-4: AddressFault first. -/
theorem test_fault_priority : (nextOf (step (sample 99 0 [(99, -5)]))).map State.fault = some (some (.addressFault 100)) := by
  decide
/-- V-STEP-5. -/
theorem test_opcode_fault : (nextOf (step (sample 40 3 [(40, -999)]))).map (fun t => (t.fault, t.pc, t.ir)) =
    some (some (.opcodeFault (-10) (-999)), 41, -999) := by decide
/-- V-IO-2. -/
theorem test_load_deck_refused : hostOp (.loadDeck [['a', 'b', 'c']]) ⟨State.reset, false⟩ = .refused := by decide
/-- V-INP-6: the line request and its answer. -/
theorem test_answer_line : hostOp .step ⟨sample 20 0 [(20, 10)], false⟩ = .done ⟨sample 20 0 [(20, 10)], true⟩ .lineRequest none ∧
    hostOp (.answerLine ['-', '5']) ⟨sample 20 0 [(20, 10)], true⟩ =
      .done ⟨{ sample 21 0 [(10, -5), (20, 10)] with ir := 10 }, false⟩ .nothing none := by decide
/-- V-CFG-1. -/
theorem test_construct : checkRegistry standardGroups = none := by decide
/-- V-CFG-2. -/
theorem test_construct_missing : checkRegistry [groupOfNumbers .arithStore [1, 2, 4, 6, 7],
    groupOfNumbers .controlFlow [3, 8, 9]] = some (.missingGroup .io) := by decide
/-- V-CFG-4. -/
theorem test_construct_duplicate : checkRegistry [groupOfNumbers .arithStore [1, 2, 3, 4, 6, 7],
    groupOfNumbers .io [0, 5], groupOfNumbers .controlFlow [3, 8, 9]] = some (.duplicateOpcode 3) := by decide
/-- V-CFG-6. -/
theorem test_construct_invalid : checkRegistry [groupOfNumbers .arithStore [1, 2, 4, 6, 7], groupOfNumbers .io [0, 5],
    groupOfNumbers .controlFlow [3, 8, 9, -1]] = some (.invalidOpcode (.number (-1))) := by decide
/-- V-RUN-5. -/
theorem test_flush : resultText [['0', '0', '1'], ['0', '0', '2']] = ['0', '0', '1', '\n', '0', '0', '2'] := by decide
/-- V-RUN-1: the line request of a run and its answer, after which the run goes on. -/
theorem test_answer_in_run : engineMove ⟨inRun (sample 20 0 [(20, 10)]), false⟩ =
      .done ⟨inRun (sample 20 0 [(20, 10)]), true⟩ .lineRequest none ∧
    hostOp (.answerLine ['7']) ⟨inRun (sample 20 0 [(20, 10)]), true⟩ =
      .done ⟨inRun { sample 21 0 [(10, 7), (20, 10)] with ir := 10 }, false⟩ .nothing none := by decide
/-- V-RUN-2: no provider, and the step of the run waits for ever. -/
theorem test_run_stuck : engineMove ⟨inRun { sample 20 0 [(20, 10)] with params := ⟨1, false⟩ }, false⟩ = .never := by decide
/-- V-STEP-5 by the host's Step, which hands back the fault. -/
theorem test_host_step_fault : hostOp .step ⟨sample 40 3 [(40, -999)], false⟩ =
    .done ⟨{ sample 41 3 [(40, -999)] with ir := -999, fault := some (.opcodeFault (-10) (-999)) }, false⟩
      (.fault (.opcodeFault (-10) (-999))) none := by decide
/-- V-RUN-3, its stop after the first step: Stop hands back nothing, and Run the empty result. -/
theorem test_stop : hostOp .stop ⟨inRun (sample 0 0 [(0, 800), (99, 801)]), false⟩ =
    .done ⟨sample 0 0 [(0, 800), (99, 801)], false⟩ .nothing (some (.result [])) := by decide
/-- R91, Running to Running: one move on CLA 15. -/
theorem test_move : engineMove ⟨inRun (sample 20 7 [(15, -42), (20, 115)]), false⟩ =
    .done ⟨inRun { sample 21 (-42) [(15, -42), (20, 115)] with ir := 115 }, false⟩ .nothing none := by decide
/-- V-RUN-6. -/
theorem test_run_hrs : run 2 none (sample 0 0 [(0, 900)]) = some (.halted (sample 0 0 [(0, 900)]) []) := by decide

/-! ### The host's two questions, on a word of the table -/

theorem test_fetch_word : (nextOf (step (State.reset.withFetchWord 16 115))).map State.ir = some 115 := by decide
theorem test_fetch_inp : (nextOf (step (State.reset.withFetchWord 8 0))).map State.pc = some 1 := by decide

/-! ### Witnesses: the hypotheses of each statement that has some are met together -/

/-- The model's reset state meets the invariant, and so does a state at cell 98 and one at cell 99. -/
theorem inv_reset : State.reset.Inv := ⟨by decide, by decide, by decide, by decide, by decide⟩
theorem inv_98 : (sample 98 0 [(98, -999)]).Inv := ⟨by decide, by decide, by decide, by decide, by decide⟩
theorem inv_99 : (sample 99 0 [(99, 806)]).Inv := ⟨by decide, by decide, by decide, by decide, by decide⟩

theorem witness_FloorDivisionTakesTheGreatestQuotient : (0 : Int) < 10 ∧ (-1 : Int) * 10 ≤ -5 := by decide
theorem witness_TruncationKeepsSignAndThreeDigits :
    ((0 : Int) ≤ 999 ∧ (-999 : Int) ≤ 999 ∧ (999 : Int) ≤ 999) ∧ ((-999 : Int) ≤ 0 ∧ (-999 : Int) ≤ 999) := by decide
theorem witness_ParsingUndoesTheCellText : (-999 : Int) ≤ -42 ∧ (-42 : Int) ≤ 999 := by decide
theorem witness_TokenTextsReadBack : tokenOfText ['-', '0', '7'] = some (negative 0 [7]) := by decide
theorem witness_MemReadGivesTheCellOrFaults :
    ((100 : Int) < 0 ∨ (99 : Int) < 100) ∧ ((0 : Int) ≤ 99 ∧ (99 : Int) ≤ 99 ∧ ∀ c ∈ State.reset.mem, c.1 ≠ (99 : Int).toNat) := by
  decide
theorem witness_MemRead_inRange : (0 : Int) ≤ 99 ∧ (99 : Int) ≤ 99 ∧ Memory.inRange (sample 0 0 [(0, -999), (99, 999)]).mem := by
  decide
theorem witness_MemWriteStoresInItsOwnCellOrFaults :
    ((-1 : Int) < 0 ∨ (99 : Int) < -1) ∧ ((0 : Int) ≤ 0 ∧ (0 : Int) ≤ 99) := by decide
theorem witness_WriteThenReadGivesTheTruncatedValue :
    (0 : Int) ≤ 7 ∧ (7 : Int) ≤ 99 ∧ (-999 : Int) ≤ 999 ∧ (999 : Int) ≤ 999 := by decide
theorem witness_StepWritesOnlyTheTargetCell : ∃ t, (sample 20 579 [(20, 622)]).pc ≤ 99 ∧
    step (sample 20 579 [(20, 622)]) = .next t ∧ t.cell 22 ≠ (sample 20 579 [(20, 622)]).cell 22 :=
  ⟨_, by decide, rfl, by decide⟩
theorem witness_StoreIsSeenByTheNextFetch : (sample 21 900 []).fault = none ∧ (sample 21 900 []).pc ≤ 98 ∧
    decode (trunc3 (sample 21 900 []).acc) = .ok (.hrs 0) := ⟨rfl, by decide, rfl⟩
theorem witness_DecodeSplitsTheWord : ((0 : Int) ≤ 999 ∧ (999 : Int) ≤ 999) ∧ ((-999 : Int) ≤ -999 ∧ (-999 : Int) ≤ -1) := by
  decide
theorem witness_OpcodeMapIsAsTabulated : 99 ≤ 99 ∧ 9 ≤ 9 := by decide
theorem witness_DecodingAnEncodedInstructionGivesItBack : (Instr.sft 9 9).wf = true := by decide
theorem witness_EncodingADecodedWordGivesItBack : decode 899 = .ok (.jmp 99) := rfl
theorem witness_ConstructionChecksTheGroups : construct standardGroups Config.params = .ok (State.powerOn Config.params) := rfl
theorem witness_MissingGroupFailsTheBuild :
    ∃ name, ∀ g ∈ [groupOfNumbers .arithStore [1], groupOfNumbers .controlFlow [3]], g.name ≠ name := ⟨.io, by decide⟩
theorem witness_SftCornerCases : ((0 : Nat) = 0 ∧ (-5 : Int) < 0) ∧ ((0 : Nat) = 0 ∧ (0 : Int) ≤ 9 ∧ (9 : Int) < 10 ^ 1) ∧
    ((4 : Nat) ≤ 9 ∧ 1 ≤ 4 ∧ 4 ≤ 4) := by decide
/-- CLA, ADD, SUB, STO, OUT, TAC, HRS: their operand at the two ends of its range; SFT's counts likewise. -/
theorem witness_ClaLoadsTheCell : 0 ≤ 99 ∧ 99 ≤ 99 := by decide
theorem witness_AddAddsTheCellWithoutBound : 0 ≤ 99 ∧ 99 ≤ 99 := by decide
theorem witness_SubSubtractsTheCellWithoutBound : 0 ≤ 99 ∧ 99 ≤ 99 := by decide
theorem witness_StoStoresTheAccumulator : 0 ≤ 99 ∧ 99 ≤ 99 := by decide
theorem witness_OutAppendsTheCellText : 0 ≤ 99 ∧ 99 ≤ 99 := by decide
theorem witness_TacBranchesExactlyWhenNegative : 0 ≤ 99 ∧ 99 ≤ 99 := by decide
theorem witness_HrsResetsTheRegistersOnly : 0 ≤ 99 ∧ 99 ≤ 99 := by decide
theorem witness_SftShiftsLeftThenRight : 0 ≤ 9 ∧ 9 ≤ 9 := by decide
theorem witness_SftHasAClosedForm : 0 ≤ 9 ∧ 9 ≤ 9 := by decide
theorem witness_InpStoresTheFrontToken : 10 ≤ 99 ∧ (sampleIn 21 [] [plain 0 [4, 2]]).inq = plain 0 [4, 2] :: [] := by decide
theorem witness_InpStoresTheProvidersAnswer : 1 ≤ 99 ∧ State.reset.inq = [] ∧ State.reset.params.lineProvider = true := by
  decide
theorem witness_InpWithoutProviderNeverHappens : ∃ s : State, s.fault = none ∧ s.pc ≤ 98 ∧
    decode (s.cell s.pc) = .ok (.inp 10) ∧ s.inq = [] ∧ s.params.lineProvider = false :=
  ⟨{ sample 20 0 [(20, 10)] with params := ⟨1, false⟩ }, rfl, by decide, rfl, rfl, rfl⟩
theorem witness_QueuesArePoppedByInpAndAppendedByOut : ∃ t, (sampleIn 20 [(20, 10)] [plain 7 []]).pc ≤ 99 ∧
    step (sampleIn 20 [(20, 10)] [plain 7 []]) = .next t := ⟨_, by decide, rfl⟩
theorem witness_OutputStaysTextsOfCells : ∃ t, (sample 99 0 [(99, 806)]).Inv ∧ (sample 99 0 [(99, 806)]).OutputForm ∧
    step (sample 99 0 [(99, 806)]) = .next t := ⟨_, inv_99, by simp [State.OutputForm, sample, State.powerOn], rfl⟩
/-- The same in a run, with a provider and without. -/
theorem witness_AnswerLine_inRun : (∃ s : State, s.fault = none ∧ s.pc ≤ 98 ∧ decode (s.cell s.pc) = .ok (.inp 10) ∧
      s.inq = [] ∧ s.running = true ∧ s.params.lineProvider = true) ∧
    ∃ s : State, s.fault = none ∧ s.pc ≤ 98 ∧ decode (s.cell s.pc) = .ok (.inp 10) ∧ s.inq = [] ∧ s.running = true ∧
      s.params.lineProvider = false :=
  ⟨⟨inRun (sample 98 0 [(98, 10)]), rfl, by decide, rfl, rfl, rfl, rfl⟩,
    ⟨inRun { sample 98 0 [(98, 10)] with params := ⟨1, false⟩ }, rfl, by decide, rfl, rfl, rfl, rfl⟩⟩
theorem witness_AnswerLineCompletesTheWaitingInp : (sample 20 0 [(20, 10)]).fault = none ∧
    (sample 20 0 [(20, 10)]).running = false ∧ (sample 20 0 [(20, 10)]).pc ≤ 98 ∧
    decode ((sample 20 0 [(20, 10)]).cell (sample 20 0 [(20, 10)]).pc) = .ok (.inp 10) ∧
    (sample 20 0 [(20, 10)]).inq = [] ∧ tokenOfText ['-', '5'] = some (negative 5 []) := ⟨rfl, rfl, by decide, rfl, rfl, rfl⟩
theorem witness_FreeAnswerIsOneOfTheHostsAnswers : State.reset.pc ≤ 99 ∧ needsLine State.reset = true ∧
    State.reset.params.lineProvider = true := by decide
theorem witness_LoadDeckAppendsInIdleOnly : (State.reset.fault = none ∧ State.reset.running = false ∧
      [['0', '0', '2'], ['-', '2']].map tokenOfText = [plain 0 [0, 2], negative 2 []].map some) ∧
    none ∈ [['a', 'b', 'c']].map tokenOfText := by decide
theorem witness_JmpLeavesTheReturnWord : 99 ≤ 99 ∧ (sample 99 0 []).pc ≤ 99 ∧ (sample 1 0 []).pc ≤ 99 := by decide
theorem witness_OnlyHrsClearsRunning : ∃ t, (sample 20 0 [(20, 900)]).pc ≤ 99 ∧
    step { sample 20 0 [(20, 900)] with running := true } = .next t ∧ t.running ≠ true := ⟨_, by decide, rfl, by decide⟩
theorem witness_ReturnWordCannotRunInCell99 : (sample 21 0 []).fault = none ∧ (sample 21 0 []).pc ≤ 99 := by decide
theorem witness_StepRunsTheDecodedInstruction : (sample 98 0 [(98, 111)]).fault = none ∧ (sample 98 0 [(98, 111)]).pc ≤ 98 ∧
    decode ((sample 98 0 [(98, 111)]).cell (sample 98 0 [(98, 111)]).pc) = .ok (.cla 11) := ⟨rfl, by decide, rfl⟩
theorem witness_AdvanceFromCell99Faults : ((sample 98 0 []).pc ≤ 98) ∧ (sample 99 0 []).fault = none ∧ (sample 99 0 []).pc = 99 := by
  decide
theorem witness_NegativeWordRaisesOpcodeFault : (sample 98 0 [(98, -999)]).fault = none ∧ (sample 98 0 [(98, -999)]).pc ≤ 98 ∧
    (sample 98 0 [(98, -999)]).cell (sample 98 0 [(98, -999)]).pc = -999 ∧ (-999 : Int) ≤ -1 ∧ ((0 : Int) ≤ 999) := by decide
theorem witness_LatchedFaultBlocksEveryStep : ((sample 99 0 []).latch (.addressFault 100)).fault = some (.addressFault 100) ∧
    ∃ t, step (sample 0 0 [(0, 900)]) = .next t := ⟨rfl, _, rfl⟩
theorem witness_HandlersRaiseNoFault : ∃ t, (Instr.sto 99).wf = true ∧ exec (.sto 99) (sample 21 5 []) = .next t :=
  ⟨_, by decide, rfl⟩
/-- The same with no line provider, for the first clause. -/
theorem witness_AnswerLine_noProvider : ∃ s : State, s.fault = none ∧ s.running = false ∧ s.pc ≤ 98 ∧
    decode (s.cell s.pc) = .ok (.inp 10) ∧ s.inq = [] ∧ s.params.lineProvider = false :=
  ⟨{ sample 98 0 [(98, 10)] with params := ⟨1, false⟩ }, rfl, rfl, by decide, rfl, rfl, rfl⟩
/-- Both ways: the AddressFault at cell 99, and an OpcodeFault at cell 98. -/
theorem witness_FaultEntryKeepsTheSnapshot :
    (∃ t, (sample 99 0 [(99, 806)]).pc ≤ 99 ∧ step (sample 99 0 [(99, 806)]) = .next t ∧ t.fault = some (.addressFault 100)) ∧
    (∃ t, (sample 98 0 [(98, -999)]).pc ≤ 99 ∧ step (sample 98 0 [(98, -999)]) = .next t ∧
      t.fault = some (.opcodeFault (-10) (-999))) := ⟨⟨_, by decide, rfl, rfl⟩, ⟨_, by decide, rfl, rfl⟩⟩
theorem witness_StepFaultsExactlyOnCell99OrNegativeWord : (sample 98 0 [(98, -999)]).Inv ∧
    (sample 98 0 [(98, -999)]).fault = none ∧ (sample 98 0 [(98, -999)]).faultAhead := ⟨inv_98, rfl, .inr (by decide)⟩
theorem witness_StepFaults_cell99 : (sample 99 0 [(99, 806)]).Inv ∧ (sample 99 0 [(99, 806)]).fault = none ∧
    (sample 99 0 [(99, 806)]).faultAhead ∧ (sample 99 0 [(99, 806)]).params.lineProvider = true := ⟨inv_99, rfl, .inl rfl, rfl⟩
theorem witness_StepFaults_safe : State.reset.Inv ∧ State.reset.params.lineProvider = true ∧ ¬ State.reset.faultAhead :=
  ⟨inv_reset, rfl, fun h => h.elim (by decide) (by decide)⟩
theorem witness_StepHappensUnlessInpIsStuck : State.reset.fault = none ∧ State.reset.pc ≤ 99 := by decide
theorem witness_EveryStepKeepsTheStateInRange : ∃ t, (sample 98 0 [(98, -999)]).Inv ∧
    step (sample 98 0 [(98, -999)]) = .next t := ⟨_, inv_98, rfl⟩
theorem witness_ResetStateIsInRange : (-999 : Int) ≤ Config.params.bootWord ∧ Config.params.bootWord ≤ 999 := by decide
/-- The accumulator written (ADD at cell 98), so that its clause's premise is met too. -/
theorem witness_RegistersAreWrittenOnlyByTheirWriters : ∃ t, (sample 98 5 [(6, 3), (98, 206)]).pc ≤ 99 ∧
    step (sample 98 5 [(6, 3), (98, 206)]) = .next t ∧ t.acc ≠ 5 := ⟨_, by decide, rfl, by decide⟩
theorem witness_StepNeitherTestsNorSetsRunning : (∃ t, step (sample 0 0 [(0, 900)]) = .next t) ∧
    ∃ r, step ((sample 0 0 []).latch (.addressFault 100)) = .refused r := ⟨⟨_, rfl⟩, ⟨_, rfl⟩⟩
theorem witness_RunEndsHaltedStoppedOrFaulted : ∃ s : State, s.fault = none ∧ s.running = true :=
  ⟨{ State.reset with running := true }, rfl, rfl⟩
/-- The passes: a step that goes on, one that halts, one that faults, and one that does not happen. -/
theorem witness_RunEnds_passes :
    (∃ t, step (inRun (sample 20 7 [(20, 115)])) = .next t ∧ t.fault = none ∧ t.running = true) ∧
    (∃ t, step (inRun (sample 20 7 [(20, 900)])) = .next t ∧ t.fault = none ∧ t.running = false) ∧
    (∃ t f, step (inRun (sample 99 7 [])) = .next t ∧ t.fault = some f) ∧
    (∃ r, step (inRun { sample 20 0 [(20, 10)] with params := ⟨1, false⟩ }) = .refused r) ∧ (none : Option Nat) ≠ some 0 :=
  ⟨⟨_, rfl, rfl, rfl⟩, ⟨_, rfl, rfl, rfl⟩, ⟨_, _, rfl, rfl⟩, ⟨_, rfl⟩, nofun⟩
theorem witness_RunIsAdmittedInIdleOnly : (State.reset.fault = none ∧ State.reset.running = false) ∧
    (State.reset.latch (.addressFault 100)).fault ≠ none ∧ (State.reset.setRunning true).running = true := by decide
theorem witness_StopFlushesTheOutputAndKeepsTheRest : (∃ s : State, s.fault = none ∧ s.running = true) ∧
    State.reset.running = false := ⟨⟨{ State.reset with running := true }, rfl, rfl⟩, rfl⟩
theorem witness_HrsEndsTheRunWithAFlush : ∃ s : State, s.fault = none ∧ s.running = true ∧ s.pc ≤ 98 ∧
    decode (s.cell s.pc) = .ok (.hrs 0) := ⟨{ sample 98 0 [(98, 900)] with running := true }, rfl, rfl, by decide, rfl⟩
/-- The second clause: an instruction that is no HRS, and an INP with a token in the queue. -/
theorem witness_HrsEndsTheRun_goesOn : (inRun (sample 98 0 [(98, 115)])).fault = none ∧
    (inRun (sample 98 0 [(98, 115)])).running = true ∧ (inRun (sample 98 0 [(98, 115)])).pc ≤ 98 ∧
    decode ((inRun (sample 98 0 [(98, 115)])).cell 98) = .ok (.cla 15) ∧ (∀ n, Instr.cla 15 ≠ .hrs n) ∧
    (∀ a, Instr.cla 15 ≠ .inp a) ∧ (inRun (sampleIn 98 [(98, 10)] [plain 7 []])).inq ≠ [] :=
  ⟨rfl, rfl, by decide, rfl, nofun, nofun, nofun⟩
theorem witness_SingleStepNeverFlushes : ∃ h r e, (sample 0 0 [(0, 900)]).pc ≤ 99 ∧
    hostOp .step ⟨sample 0 0 [(0, 900)], false⟩ = .done h r e := ⟨_, _, _, by decide, rfl⟩
theorem witness_FaultEndsTheRunWithoutAFlush : ∃ t f, (sample 99 0 []).pc ≤ 99 ∧
    step { sample 99 0 [] with running := true } = .next t ∧ t.fault = some f := ⟨_, _, by decide, rfl, rfl⟩
/-- The step itself: one that ends Idle, one that faults; and the two phases that refuse it. -/
theorem witness_SingleStep_outcomes :
    (∃ t, needsLine (sample 98 7 [(98, 115)]) = false ∧ step (sample 98 7 [(98, 115)]) = .next t ∧ t.fault = none) ∧
    (∃ t f, needsLine (sample 99 7 []) = false ∧ step (sample 99 7 []) = .next t ∧ t.fault = some f) ∧
    (State.reset.latch (.addressFault 100)).fault ≠ none ∧ (inRun State.reset).running = true :=
  ⟨⟨_, by decide, rfl, rfl⟩, ⟨_, _, by decide, rfl, rfl⟩, by decide, rfl⟩
/-- The second clause: a step that leaves the run going on. -/
theorem witness_FaultEndsTheRun_goesOn : ∃ t, needsLine (inRun (sample 20 7 [(20, 115)])) = false ∧
    step (inRun (sample 20 7 [(20, 115)])) = .next t ∧ t.fault = none ∧ t.running = true := ⟨_, by decide, rfl, rfl, rfl⟩
theorem witness_OpenRequestAdmitsOnlyItsAnswer : (∀ y, HostOp.reset ≠ .answerLine y) ∧ tokenOfText ['x'] = none :=
  ⟨fun _ h => HostOp.noConfusion h, rfl⟩
theorem witness_FullResetSetsEveryPieceOfState : ∃ h r e, (State.reset.latch (.addressFault 100)).fault ≠ none ∧
    hostOp .reset ⟨State.reset.latch (.addressFault 100), false⟩ = .done h r e ∧ h.core.fault = none :=
  ⟨_, _, _, by decide, rfl, rfl⟩
/-- The compositions of V-CFG-2, V-CFG-6 and V-CFG-4. -/
def withoutIo : List Group := [groupOfNumbers .arithStore [1, 2, 4, 6, 7], groupOfNumbers .controlFlow [3, 8, 9]]
def withMinusOne : List Group :=
  [groupOfNumbers .arithStore [1, 2, 4, 6, 7], groupOfNumbers .io [0, 5], groupOfNumbers .controlFlow [3, 8, 9, -1]]
def withTwoThrees : List Group :=
  [groupOfNumbers .arithStore [1, 2, 3, 4, 6, 7], groupOfNumbers .io [0, 5], groupOfNumbers .controlFlow [3, 8, 9]]

/-- Only the I/O group is missing. -/
theorem witness_EachRegistryCheck_missing : (∀ g ∈ withoutIo, g.name ≠ .io) ∧
    (∀ other, other ≠ GroupName.io → ∃ g ∈ withoutIo, g.name = other) ∧
    (∀ g ∈ withoutIo, ∀ d ∈ g.opcodes, ∃ n : Int, d = .number n ∧ 0 ≤ n ∧ n ≤ 9) ∧
    ∀ n, withoutIo.countP (declares n) ≤ 1 := by
  refine ⟨by decide, fun o h => by cases o <;> simp [withoutIo, groupOfNumbers] at h ⊢, by simp [withoutIo, groupOfNumbers],
    fun n => ?_⟩
  simp [withoutIo, List.countP_cons, declares, groupOfNumbers]
  split_ifs <;> omega
/-- Only the number -1 is invalid. -/
theorem witness_EachRegistryCheck_invalid : (∃ g ∈ withMinusOne, DeclaredOpcode.number (-1) ∈ g.opcodes) ∧
    (∀ n : Int, DeclaredOpcode.number (-1) = .number n → n < 0 ∨ 9 < n) ∧
    (∀ name, ∃ g ∈ withMinusOne, g.name = name) ∧
    (∀ g ∈ withMinusOne, ∀ e ∈ g.opcodes, e = .number (-1) ∨ ∃ n : Int, e = .number n ∧ 0 ≤ n ∧ n ≤ 9) ∧
    ∀ n, withMinusOne.countP (declares n) ≤ 1 := by
  refine ⟨by decide, fun n h => by cases h; decide, fun o => by cases o <;> simp [withMinusOne, groupOfNumbers],
    by simp [withMinusOne, groupOfNumbers], fun n => ?_⟩
  simp [withMinusOne, List.countP_cons, declares, groupOfNumbers]
  split_ifs <;> omega
/-- Only the number 3 is declared twice. -/
theorem witness_EachRegistryCheck_duplicate : 2 ≤ withTwoThrees.countP (declares 3) ∧
    (∀ m, m ≠ 3 → withTwoThrees.countP (declares m) ≤ 1) ∧ (∀ name, ∃ g ∈ withTwoThrees, g.name = name) ∧
    ∀ g ∈ withTwoThrees, ∀ d ∈ g.opcodes, ∃ n : Int, d = .number n ∧ 0 ≤ n ∧ n ≤ 9 := by
  refine ⟨by decide, fun n h => ?_, fun o => by cases o <;> simp [withTwoThrees, groupOfNumbers],
    by simp [withTwoThrees, groupOfNumbers]⟩
  simp [withTwoThrees, List.countP_cons, declares, groupOfNumbers]
  split_ifs <;> omega

end Sys2Proof.Tests
end

section
/-! PROOFS. Numbers and texts (spec/00_scope.md R8, R11, R12): the two arithmetic statements, and the text of a cell value,
read back as a token. -/

namespace Sys2Proof.Machine

/-! ### Floor division and cell truncation -/

/-- Floor division by a positive divisor is characterised by its lower bounds. -/
theorem le_floorDiv_iff {a b q : Int} (h : 0 < b) : q ≤ floorDiv a b ↔ q * b ≤ a := by
  rw [floorDiv_eq a h, Int.le_ediv_iff_mul_le h]

theorem floorMod_eq_sub (a b : Int) : floorMod a b = a - b * floorDiv a b := Int.fmod_def a b

/-- Settles O1: the quotient's lower bounds, and the library's bounds of the remainder. -/
theorem floorDivisionTakesTheGreatestQuotient : Obligations.FloorDivisionTakesTheGreatestQuotient := by
  unfold Obligations.FloorDivisionTakesTheGreatestQuotient
  refine ⟨fun a b hb => ⟨(le_floorDiv_iff hb).mp le_rfl, fun q => (le_floorDiv_iff hb).mpr, ?_, ?_⟩,
    floorMod_eq_sub, by decide, by decide⟩
  · rw [floorMod_eq a hb]
    exact Int.emod_nonneg a hb.ne'
  · rw [floorMod_eq a hb]
    exact Int.le_sub_one_of_lt (Int.emod_lt_of_pos a hb)

theorem natAbs_trunc3 (v : Int) : (trunc3 v).natAbs = v.natAbs % 1000 := by
  rcases Int.lt_or_le v 0 with h | h
  · rw [trunc3_of_neg h]; omega
  · rw [trunc3_of_nonneg h]; omega

theorem trunc3_nonneg {v : Int} (h : 0 ≤ v) : 0 ≤ trunc3 v := by
  rw [trunc3_of_nonneg h]; omega

theorem trunc3_nonpos {v : Int} (h : v ≤ 0) : trunc3 v ≤ 0 := by
  rcases Int.lt_or_eq_of_le h with h | rfl
  · rw [trunc3_of_neg h]; omega
  · decide

/-- A cell value is stored as it is. -/
theorem trunc3_of_cellValue {v : Int} (hl : -999 ≤ v) (hu : v ≤ 999) : trunc3 v = v := by
  rcases Int.lt_or_le v 0 with h | h
  · rw [trunc3_of_neg h]; omega
  · rw [trunc3_of_nonneg h]; omega

/-- Settles O2, from what trunc3 is on either side of zero. -/
theorem truncationKeepsSignAndThreeDigits : Obligations.TruncationKeepsSignAndThreeDigits := by
  unfold Obligations.TruncationKeepsSignAndThreeDigits
  refine ⟨fun v => ?_, by decide, by decide, by decide⟩
  obtain ⟨hl, hu⟩ := trunc3_bounds v
  exact ⟨rfl, natAbs_trunc3 v, trunc3_nonneg, trunc3_nonpos, hl, hu, trunc3_of_cellValue⟩

/-! ### The text of a token reads back as it -/

@[simp] theorem digitOfChar_digitChar (d : Digit) : digitOfChar (digitChar d.val) = some d := by
  decide +revert

@[simp] theorem digitsOfText_map_digitChar (ds : List Digit) :
    digitsOfText (ds.map fun d => digitChar d.val) = some ds := by
  induction ds with
  | nil => rfl
  | cons d ds ih => simp [digitsOfText, ih]

theorem unsignedToken_digits (sign : Option Sign) (d : Digit) (ds : List Digit) :
    unsignedToken sign ((d :: ds).map fun d => digitChar d.val) = some ⟨sign, d, ds⟩ := by
  rw [unsignedToken, digitsOfText_map_digitChar]

/-- No digit is a sign, so a text that opens with a digit is read as unsigned. -/
theorem tokenOfText_digit_cons (d : Digit) (x : Text) :
    tokenOfText (digitChar d.val :: x) = unsignedToken none (digitChar d.val :: x) := by
  have hplus : digitChar d.val ≠ '+' := by decide +revert
  have hminus : digitChar d.val ≠ '-' := by decide +revert
  simp [tokenOfText, hplus, hminus]

theorem tokenOfText_tokenText (t : Token) : tokenOfText (tokenText t) = some t := by
  obtain ⟨sign, d, ds⟩ := t
  match sign with
  | none => exact (tokenOfText_digit_cons d _).trans (unsignedToken_digits none d ds)
  | some .plus => exact unsignedToken_digits (some .plus) d ds
  | some .minus => exact unsignedToken_digits (some .minus) d ds

/-! ### The value of a token -/

/-- Reading on from `n` is the positional value with `n` in front. -/
theorem readDigits_eq (n : Nat) (ds : List Digit) :
    readDigits n ds = Nat.ofDigits 10 (ds.reverse.map fun d => d.val) + 10 ^ ds.length * n := by
  induction ds generalizing n with
  | nil => simp [readDigits]
  | cons d ds ih =>
    simp only [readDigits, ih, List.reverse_cons, List.map_append, List.map_cons, List.map_nil, Nat.ofDigits_append,
      Nat.ofDigits_singleton, List.length_map, List.length_reverse, List.length_cons]
    ring

theorem parse_eq_ofDigits (t : Token) : parse t = (if t.sign = some .minus then -1 else 1) *
    ((Nat.ofDigits 10 ((t.first :: t.rest).reverse.map fun d => d.val) : Nat) : Int) := by
  obtain ⟨sign, d, ds⟩ := t
  match sign with
  | none | some .plus | some .minus => simp [parse, readDigits_eq]

/-! ### The text of a cell value -/

/-- The k-th digit of a number (R9), as a digit. -/
def nthDigit (k n : Nat) : Digit := ⟨digitAt k n, Nat.mod_lt _ (by decide)⟩

theorem eq_sum_nthDigit {n : Nat} (h : n ≤ 999) :
    n = 100 * (nthDigit 2 n).val + 10 * (nthDigit 1 n).val + (nthDigit 0 n).val := by
  simp only [nthDigit, digitAt]
  omega

/-- The token whose text `fmt3` writes: the sign of a negative value, then the three low digits of the magnitude. -/
def cellToken (v : Int) : Token where
  sign := if v < 0 then some .minus else none
  first := nthDigit 2 v.natAbs
  rest := [nthDigit 1 v.natAbs, nthDigit 0 v.natAbs]

theorem tokenText_cellToken (v : Int) : tokenText (cellToken v) = fmt3 v := by
  unfold cellToken fmt3
  split <;> rfl

theorem parse_cellToken {v : Int} (hl : -999 ≤ v) (hu : v ≤ 999) : parse (cellToken v) = v := by
  have hsum := eq_sum_nthDigit (n := v.natAbs) (by omega)
  by_cases h : v < 0
  · simp only [parse, cellToken, h, if_true, readDigits]; omega
  · simp only [parse, cellToken, h, if_false, readDigits]; omega

/-- Settles O3: the text of a cell value is the text of its token, which reads back, and the token's value is the cell's. -/
theorem parsingUndoesTheCellText : Obligations.ParsingUndoesTheCellText := by
  unfold Obligations.ParsingUndoesTheCellText
  refine ⟨fun v hl hu => ⟨?_, nthDigit 2 v.natAbs, nthDigit 1 v.natAbs, nthDigit 0 v.natAbs,
    eq_sum_nthDigit (by omega), rfl⟩, parse_eq_ofDigits, by decide, by decide, by decide⟩
  rw [← tokenText_cellToken, tokenOfText_tokenText, Option.map_some, parse_cellToken hl hu]

end Sys2Proof.Machine
end

section
/-! PROOFS. The state (spec/10_state.md R22 to R32): the invariant of R32, which every operation on the state keeps, and who
writes the registers, the run flag and the queues, as the access table of R31 has it. -/

namespace Sys2Proof.Machine

theorem wf_of_decode {w : Int} {i : Instr} (h : decode w = .ok i) : i.wf = true := by
  obtain ⟨-, -, hwf, -⟩ := decode_ok h
  exact hwf

/-! ### The invariant of R32, one rule per operation on the state -/

theorem State.Inv.setPc {s : State} (h : s.Inv) {v : Nat} (hv : v ≤ 99) : (s.setPc v).Inv := { h with pc_le := hv }

theorem State.Inv.setIr {s : State} (h : s.Inv) {v : Int} (hv : -999 ≤ v ∧ v ≤ 999) : (s.setIr v).Inv :=
  { h with ir_range := hv }

theorem State.Inv.setAcc {s : State} (h : s.Inv) (v : Int) : (s.setAcc v).Inv := { h with }

theorem State.Inv.setRunning {s : State} (h : s.Inv) (v : Bool) : (s.setRunning v).Inv := { h with }

theorem State.Inv.latch {s : State} (h : s.Inv) (f : Fault) : (s.latch f).Inv := { h with }

theorem State.Inv.setInq {s : State} (h : s.Inv) (q : List Token) : (s.setInq q).Inv := { h with }

theorem State.Inv.countRequest {s : State} (h : s.Inv) : s.countRequest.Inv := { h with }

theorem State.Inv.outPush {s : State} (h : s.Inv) (t : Text) : (outPush t s).Inv := { h with }

/-- A write of an existing cell, whatever the value: trunc3 brings it into the range of a cell. -/
theorem State.Inv.writeCell {s : State} (h : s.Inv) {a : Nat} (ha : a ≤ 99) (v : Int) :
    (s.setMem (writeCell s.mem a (trunc3 v))).Inv :=
  { h with
    mem_wf := writeCell_wf a _ h.mem_wf
    mem_range := writeCell_inRange h.mem_range ha (trunc3_bounds v).1 (trunc3_bounds v).2 }

theorem State.Inv.inPop {s s' : State} {x : Token} (h : s.Inv) (hp : inPop s = some (x, s')) : s'.Inv := by
  rcases inPop_cases hp with ⟨rest, -, rfl⟩ | ⟨-, -, -, rfl⟩
  · exact h.setInq rest
  · exact h.countRequest

/-- What the fetch puts into IR is a cell value. -/
theorem State.Inv.fetched {s : State} (h : s.Inv) (a : Nat) : (s.setIr (s.cell a)).Inv :=
  h.setIr (readCell_range h.mem_range a)

theorem State.Inv.postFetch {s : State} (h : s.Inv) (hpc : s.pc ≤ 98) :
    ((s.setIr (s.cell s.pc)).setPc (s.pc + 1)).Inv :=
  (h.fetched s.pc).setPc (Nat.succ_le_succ hpc)

/-- Every handler keeps the invariant: its operands are in 0..99 and its writes go through trunc3. -/
theorem State.Inv.exec {i : Instr} {s t : State} (hs : s.Inv) (hi : i.wf = true) (h : exec i s = .next t) : t.Inv := by
  rcases exec_cases hi h with ⟨a, s₁, x, -, ha, hpop, rfl⟩ | ⟨-, v, rfl⟩ | ⟨n, -, hn, rfl⟩ | ⟨a, -, -, rfl⟩ |
    ⟨a, -, ha, rfl⟩ | ⟨n, v, -, hn, rfl, rfl⟩ | ⟨n, -, rfl⟩
  · exact (hs.inPop hpop).writeCell ha _
  · exact hs.setAcc v
  · split
    · exact hs.setPc hn
    · exact hs
  · exact hs.outPush _
  · exact hs.writeCell ha _
  · exact (hs.writeCell le_rfl _).setPc hn
  · exact (((hs.setPc (by decide)).setIr (by decide)).setAcc 0).setRunning false

/-- Settles O47: the two faulting ends of a step keep the invariant, and so does the handler in the post-fetch state. -/
theorem everyStepKeepsTheStateInRange : Obligations.EveryStepKeepsTheStateInRange := by
  unfold Obligations.EveryStepKeepsTheStateInRange
  intro s t hs h
  obtain ⟨-, ⟨-, rfl⟩ | ⟨hpc, -, rfl⟩ | ⟨hpc, i, hd, hx⟩⟩ := step_cases hs.pc_le h
  · exact (hs.fetched 99).latch _
  · exact (hs.postFetch hpc).latch _
  · exact (hs.postFetch hpc).exec (wf_of_decode hd) hx

/-- The full reset's only cell that is not blank holds BOOT_WORD. -/
theorem powerOn_inv {p : Params} (hl : -999 ≤ p.bootWord) (hu : p.bootWord ≤ 999) : (State.powerOn p).Inv where
  pc_le := Nat.zero_le _
  ir_range := show (-999 : Int) ≤ 0 ∧ (0 : Int) ≤ 999 by decide
  mem_wf := powerOn_mem_wf p
  mem_range := writeCell_inRange (m := []) nofun (Nat.zero_le _) hl hu
  boot_range := ⟨hl, hu⟩

/-- Settles O48: the rule for a full reset, and the same for the default BOOT_WORD. -/
theorem resetStateIsInRange : Obligations.ResetStateIsInRange := by
  unfold Obligations.ResetStateIsInRange
  exact ⟨fun _ hl hu => powerOn_inv hl hu, powerOn_inv (by decide) (by decide)⟩

/-! ### The access table of R31: registers, run flag and queues -/

/-- What a handler may have written of the registers, the run flag and the queues when instruction `i` has taken `s` to `t`
(R31): each is as it was, or `i` is one of its writers and has written what the table gives it. -/
structure WritesAsTabulated (i : Instr) (s t : State) : Prop where
  acc : t.acc = s.acc ∨ i.opcode = 1 ∨ i.opcode = 2 ∨ i.opcode = 4 ∨ i.opcode = 7 ∨ i.opcode = 9
  ir : t.ir = s.ir ∨ t.ir = 0 ∧ ∃ n, i = .hrs n
  pc : t.pc = s.pc ∨ s.acc < 0 ∧ i = .tac t.pc ∨ i = .jmp t.pc ∨ t.pc = 0 ∧ ∃ n, i = .hrs n
  running : t.running = s.running ∨ t.running = false ∧ ∃ n, i = .hrs n
  inq : t.inq = s.inq ∨ ∃ x a, i = .inp a ∧ s.inq = x :: t.inq
  outq : t.outq = s.outq ∨ ∃ a, i = .out a ∧ t.outq = s.outq ++ [fmt3 (s.cell a)]
  params : t.params = s.params

theorem writesAsTabulated_self (i : Instr) (s : State) : WritesAsTabulated i s s :=
  ⟨.inl rfl, .inl rfl, .inl rfl, .inl rfl, .inl rfl, .inl rfl, rfl⟩

/-- INP takes the front of the queue, or a free answer that was never in it. -/
theorem writesAsTabulated_inPop {s s₁ : State} {x : Token} (a : Nat) (h : inPop s = some (x, s₁)) :
    WritesAsTabulated (.inp a) s s₁ := by
  rcases inPop_cases h with ⟨rest, hq, rfl⟩ | ⟨-, -, -, rfl⟩
  · exact { writesAsTabulated_self _ s with inq := .inr ⟨x, a, rfl, hq⟩ }
  · exact { writesAsTabulated_self _ s with }

/-- Every handler writes as the access table says. -/
theorem exec_writesAsTabulated {i : Instr} {s t : State} (hi : i.wf = true) (h : exec i s = .next t) :
    WritesAsTabulated i s t := by
  have same := writesAsTabulated_self i s
  rcases exec_cases hi h with ⟨a, s₁, x, rfl, -, hpop, rfl⟩ | ⟨hop, v, rfl⟩ | ⟨n, rfl, -, rfl⟩ | ⟨a, rfl, -, rfl⟩ |
    ⟨a, rfl, -, rfl⟩ | ⟨n, v, rfl, -, -, rfl⟩ | ⟨n, rfl, rfl⟩
  · exact { writesAsTabulated_inPop a hpop with }
  · exact { same with acc := .inr (by omega) }
  · split
    · exact { same with pc := .inr (.inl ⟨‹_›, rfl⟩) }
    · exact same
  · exact { same with outq := .inr ⟨a, rfl, rfl⟩ }
  · exact { same with }
  · exact { same with pc := .inr (.inr (.inl rfl)) }
  · exact { same with
      acc := .inr (by simp [Instr.opcode])
      ir := .inr ⟨rfl, n, rfl⟩
      pc := .inr (.inr (.inr ⟨rfl, n, rfl⟩))
      running := .inr ⟨rfl, n, rfl⟩ }

/-- Everything a step with a next state can be, at a PC in 0..99, by what it writes: the AddressFault of the advance, an
OpcodeFault, or the decoded instruction's writes upon the post-fetch state. -/
theorem step_writes {s t : State} (hpc : s.pc ≤ 99) (h : step s = .next t) :
    (s.pc = 99 ∧ t = (s.setIr (s.cell s.pc)).latch (.addressFault 100)) ∨
      (∃ f, t = ((s.setIr (s.cell s.pc)).setPc (s.pc + 1)).latch f) ∨
      ∃ i, decode (s.cell s.pc) = .ok i ∧ WritesAsTabulated i ((s.setIr (s.cell s.pc)).setPc (s.pc + 1)) t := by
  obtain ⟨-, ⟨h99, ht⟩ | ⟨-, -, ht⟩ | ⟨-, i, hd, hx⟩⟩ := step_cases hpc h
  · exact .inl ⟨h99, h99.symm ▸ ht⟩
  · exact .inr (.inl ⟨_, ht⟩)
  · exact .inr (.inr ⟨i, hd, exec_writesAsTabulated (wf_of_decode hd) hx⟩)

/-- Settles O29: the stages before the handler leave the queues alone, and the handlers keep to the access table. -/
theorem queuesArePoppedByInpAndAppendedByOut : Obligations.QueuesArePoppedByInpAndAppendedByOut := by
  unfold Obligations.QueuesArePoppedByInpAndAppendedByOut
  intro s t hpc h
  obtain ⟨-, rfl⟩ | ⟨f, rfl⟩ | ⟨i, hd, hw⟩ := step_writes hpc h
  · exact ⟨.inl rfl, .inl rfl⟩
  · exact ⟨.inl rfl, .inl rfl⟩
  · refine ⟨hw.inq.imp_right ?_, hw.outq.imp_right ?_⟩
    · rintro ⟨x, a, rfl, hq⟩
      exact ⟨x, a, hd, hq⟩
    · rintro ⟨a, rfl, hq⟩
      exact ⟨a, hd, hq⟩

/-- Settles O30: the only text a step can append is that of a cell, and every cell is in range. -/
theorem outputStaysTextsOfCells : Obligations.OutputStaysTextsOfCells := by
  unfold Obligations.OutputStaysTextsOfCells State.OutputForm
  intro s t hs hout h
  obtain ⟨-, hq | ⟨a, -, hq⟩⟩ := queuesArePoppedByInpAndAppendedByOut s t hs.pc_le h
  · exact hq ▸ hout
  · obtain ⟨hl, hu⟩ := readCell_range hs.mem_range a
    rw [hq, List.forall_mem_append, List.forall_mem_singleton]
    exact ⟨hout, s.cell a, hl, hu, rfl⟩

/-- Settles O37, by the run flag's row of the access table. -/
theorem onlyHrsClearsRunning : Obligations.OnlyHrsClearsRunning := by
  unfold Obligations.OnlyHrsClearsRunning
  intro s t hpc h hne
  obtain ⟨-, rfl⟩ | ⟨f, rfl⟩ | ⟨i, hd, hw⟩ := step_writes hpc h
  · exact absurd rfl hne
  · exact absurd rfl hne
  · obtain hr | ⟨hr, n, rfl⟩ := hw.running
    · exact absurd hr hne
    · exact ⟨hr, n, hd⟩

/-- Settles O49: the fetch and the advance write IR and PC, and the handler then writes as the access table says. -/
theorem registersAreWrittenOnlyByTheirWriters : Obligations.RegistersAreWrittenOnlyByTheirWriters := by
  unfold Obligations.RegistersAreWrittenOnlyByTheirWriters
  intro s t hpc h
  obtain ⟨h99, rfl⟩ | ⟨f, rfl⟩ | ⟨i, hd, hw⟩ := step_writes hpc h
  · exact ⟨fun hne => absurd rfl hne, .inl rfl, .inr (.inr (.inr (.inr ⟨h99, h99, rfl⟩))), rfl⟩
  · exact ⟨fun hne => absurd rfl hne, .inl rfl, .inl rfl, rfl⟩
  · refine ⟨fun hne => ⟨i, hd, hw.acc.resolve_left hne⟩, hw.ir.imp_right ?_, ?_, hw.params⟩
    · rintro ⟨h0, n, rfl⟩
      exact ⟨h0, n, hd⟩
    · obtain hp | ⟨hneg, rfl⟩ | rfl | ⟨h0, n, rfl⟩ := hw.pc
      · exact .inl hp
      · exact .inr (.inl ⟨hneg, hd⟩)
      · exact .inr (.inr (.inl hd))
      · exact .inr (.inr (.inr (.inl ⟨h0, n, hd⟩)))

end Sys2Proof.Machine
end

section
/-! PROOFS. The Memory Bank (spec/20_memory.md R42 to R57): what its two operations answer at an existing address and at any
other, which cells a step can change, and a store that the next fetch sees. -/

namespace Sys2Proof.Machine

/-! ### The two operations, at an existing address and outside -/

theorem memRead_inside {a : Int} (h0 : 0 ≤ a) (h99 : a ≤ 99) (s : State) : memRead a s = .ok (s.cell a.toNat) :=
  if_neg (by omega)

theorem memRead_outside {a : Int} (h : a < 0 ∨ 99 < a) (s : State) : memRead a s = .error (.addressFault a) := if_pos h

theorem memWrite_inside {a : Int} (h0 : 0 ≤ a) (h99 : a ≤ 99) (v : Int) (s : State) :
    memWrite a v s = .ok (s.setMem (writeCell s.mem a.toNat (trunc3 v))) :=
  if_neg (by omega)

theorem memWrite_outside {a : Int} (h : a < 0 ∨ 99 < a) (v : Int) (s : State) :
    memWrite a v s = .error (.addressFault a) :=
  if_pos h

/-- A cell that the memory does not list is blank (R44). -/
theorem readCell_unlisted {m : Memory} {a : Nat} (h : ∀ c ∈ m, c.1 ≠ a) : readCell m a = blankCell := by
  induction m with
  | nil => rfl
  | cons c m ih =>
    obtain ⟨hc, hm⟩ := List.forall_mem_cons.mp h
    rw [readCell_cons, if_neg hc, ih hm]

/-- Settles O5, from what MemRead answers on either side of its address check. -/
theorem memReadGivesTheCellOrFaults : Obligations.MemReadGivesTheCellOrFaults := by
  unfold Obligations.MemReadGivesTheCellOrFaults
  intro s a
  refine ⟨fun h => memRead_outside h s, fun h0 h99 => memRead_inside h0 h99 s, fun h0 h99 hblank => ?_,
    fun h0 h99 hmem => ⟨s.cell a.toNat, memRead_inside h0 h99 s, readCell_range hmem _⟩⟩
  rw [memRead_inside h0 h99, State.cell, readCell_unlisted hblank, blankCell]

/-- Settles O6: the write goes through `writeCell`, which keeps every other cell. -/
theorem memWriteStoresInItsOwnCellOrFaults : Obligations.MemWriteStoresInItsOwnCellOrFaults := by
  unfold Obligations.MemWriteStoresInItsOwnCellOrFaults
  intro s a v
  exact ⟨fun h => memWrite_outside h v s, fun h0 h99 => ⟨_, memWrite_inside h0 h99 v s, rfl,
    readCell_writeCell_same _ _ _, fun b hb => readCell_writeCell_other _ _ b _ hb⟩⟩

/-- Settles O7: the read finds what the write has put into the cell, and trunc3 keeps a cell value. -/
theorem writeThenReadGivesTheTruncatedValue : Obligations.WriteThenReadGivesTheTruncatedValue := by
  unfold Obligations.WriteThenReadGivesTheTruncatedValue
  intro s a v h0 h99
  have hread : memRead a (s.setMem (writeCell s.mem a.toNat (trunc3 v))) = .ok (trunc3 v) := by
    rw [memRead_inside h0 h99, State.setMem_cell, readCell_writeCell_same]
  refine ⟨_, memWrite_inside h0 h99 v s, hread, fun hl hu => ?_⟩
  rw [hread, trunc3_of_cellValue hl hu]

/-! ### Which cells a step can change -/

/-- A write of one cell changes no other. -/
theorem eq_of_cell_writeCell_ne {s : State} {a b : Nat} {v : Int}
    (h : (s.setMem (writeCell s.mem a v)).cell b ≠ s.cell b) : b = a :=
  of_not_not fun hb => h (readCell_writeCell_other s.mem a b v hb)

theorem inPop_cell {s s₁ : State} {x : Token} (h : inPop s = some (x, s₁)) (b : Nat) : s₁.cell b = s.cell b := by
  rcases inPop_cases h with ⟨rest, -, rfl⟩ | ⟨-, -, -, rfl⟩
  · rfl
  · rfl

/-- A handler that changes a cell is INP or STO, of its operand, or JMP, of cell 99 (R57). -/
theorem exec_writes_target {i : Instr} {s t : State} {b : Nat} (hi : i.wf = true) (h : exec i s = .next t)
    (hne : t.cell b ≠ s.cell b) : i = .inp b ∨ i = .sto b ∨ b = 99 ∧ ∃ n, i = .jmp n := by
  rcases exec_cases hi h with ⟨a, s₁, x, rfl, -, hpop, rfl⟩ | ⟨-, v, rfl⟩ | ⟨n, -, -, rfl⟩ | ⟨a, -, -, rfl⟩ |
    ⟨a, rfl, -, rfl⟩ | ⟨n, v, rfl, -, -, rfl⟩ | ⟨n, -, rfl⟩
  · rw [← inPop_cell hpop b] at hne
    exact .inl (eq_of_cell_writeCell_ne hne ▸ rfl)
  · exact absurd rfl hne
  · split at hne
    · exact absurd rfl hne
    · exact absurd rfl hne
  · exact absurd rfl hne
  · exact .inr (.inl (eq_of_cell_writeCell_ne hne ▸ rfl))
  · exact .inr (.inr ⟨eq_of_cell_writeCell_ne hne, n, rfl⟩)
  · exact absurd rfl hne

/-- Settles O8: neither the stages before the handler nor a raise writes a cell, and the handler writes its target only. -/
theorem stepWritesOnlyTheTargetCell : Obligations.StepWritesOnlyTheTargetCell := by
  unfold Obligations.StepWritesOnlyTheTargetCell
  intro s t b hpc h hne
  obtain ⟨-, ⟨-, rfl⟩ | ⟨-, -, rfl⟩ | ⟨-, i, hd, hx⟩⟩ := step_cases hpc h
  · exact absurd rfl hne
  · exact absurd rfl hne
  · obtain rfl | rfl | ⟨hb, n, rfl⟩ := exec_writes_target (wf_of_decode hd) hx hne
    · exact .inl hd
    · exact .inr (.inl hd)
    · exact .inr (.inr ⟨hb, n, hd⟩)

/-! ### A store that the next fetch sees -/

/-- The step at a word that decodes is the handler of its instruction in the post-fetch state (R82 to R86). -/
theorem step_of_fetched_word {s : State} {w : Int} {i : Instr} (hf : s.fault = none) (hpc : s.pc ≤ 98)
    (hw : s.cell s.pc = w) (hd : decode w = .ok i) : step s = exec i ((s.setIr w).setPc (s.pc + 1)) := by
  subst hw
  obtain ⟨hl, hu, -⟩ := decode_ok hd
  rcases fetchDecode_cases s (by omega) with ⟨h99, -⟩ | ⟨-, hout, -⟩ | ⟨-, j, hj, hready⟩
  · omega
  · omega
  · obtain rfl : i = j := Except.ok.inj (hd.symm.trans hj)
    rw [step_of_clear hf, hready]

/-- Settles O9: the step after the store fetches the cell just written. -/
theorem storeIsSeenByTheNextFetch : Obligations.StoreIsSeenByTheNextFetch := by
  unfold Obligations.StoreIsSeenByTheNextFetch
  intro s i hf hpc hd
  have hcell : (s.setMem (writeCell s.mem s.pc (trunc3 s.acc))).cell s.pc = trunc3 s.acc :=
    readCell_writeCell_same _ _ _
  exact ⟨_, storing_of_le (by omega) s.acc s .next, hcell,
    step_of_fetched_word (s := s.setMem (writeCell s.mem s.pc (trunc3 s.acc))) hf hpc hcell hd⟩

end Sys2Proof.Machine
end

section
/-! PROOFS. Words (spec/30_encoding.md R60 to R64, R71): the decoder and the encoder are inverse to each other, exactly the
words 0..999 decode, and what a step does at a negative word. -/

namespace Sys2Proof.Machine

/-! ### The decoder on a word given by its digits -/

/-- The opcode map is the inverse of reading an instruction's opcode and operand (R63, R64). -/
theorem opcodeMap_opcode_operand {i : Instr} (h : i.wf = true) : opcodeMap i.opcode i.operand = some i := by
  cases i with
  | sft x y =>
    obtain ⟨-, hy⟩ : x ≤ 9 ∧ y ≤ 9 := of_decide_eq_true h
    have hx : leftCount (10 * x + y) = x := by unfold leftCount; omega
    have hy : rightCount (10 * x + y) = y := by unfold rightCount; omega
    simp only [Instr.opcode, Instr.operand, opcodeMap, hx, hy]
  | inp | cla | add | tac | out | sto | sub | jmp | hrs => rfl

theorem decode_of_lookup {w : Int} {d n : Nat} {i : Instr} (hop : opcodeOf w = d) (hn : operandOf w = n)
    (hi : opcodeMap d n = some i) : decode w = .ok i := by
  have hlookup : lookupHandler (opcodeOf w) (operandOf w) = some i := by
    rw [hop, hn, lookupHandler, if_neg (by omega), Int.toNat_natCast, hi]
  simp only [decode, hlookup]

/-- The word 100 × d + n decodes to what the opcode map has for d and n. -/
theorem decode_of_digits {w : Int} {d n : Nat} {i : Instr} (hn : n ≤ 99) (hi : opcodeMap d n = some i)
    (hw : w = 100 * d + n) : decode w = .ok i := by
  obtain ⟨hd, -⟩ := opcodeMap_spec hn hi
  obtain ⟨-, -, hop, hoperand⟩ := Laws.WordDigits.digits_of_word hd hn
  obtain rfl : w = ((100 * d + n : Nat) : Int) := by omega
  exact decode_of_lookup hop hoperand hi

/-- Settles O11: every row is the opcode map at that digit, and the ten digits are checked for their group. -/
theorem opcodeMapIsAsTabulated : Obligations.OpcodeMapIsAsTabulated := by
  unfold Obligations.OpcodeMapIsAsTabulated
  refine ⟨fun n hn => ⟨?_, ?_, ?_, ?_, ?_, ?_, ?_, ?_, ?_, ?_⟩, by decide⟩
  · exact decode_of_digits (d := 0) hn rfl (by omega)
  · exact decode_of_digits (d := 1) hn rfl (by omega)
  · exact decode_of_digits (d := 2) hn rfl (by omega)
  · exact decode_of_digits (d := 3) hn rfl (by omega)
  · exact decode_of_digits (d := 4) hn rfl (by omega)
  · exact decode_of_digits (d := 5) hn rfl (by omega)
  · exact decode_of_digits (d := 6) hn rfl (by omega)
  · exact decode_of_digits (d := 7) hn rfl (by omega)
  · exact decode_of_digits (d := 8) hn rfl (by omega)
  · exact decode_of_digits (d := 9) hn rfl (by omega)

/-! ### The two round trips -/

/-- The word of every well-formed instruction has its opcode and its operand as its digits. -/
theorem wordDigits : ∀ i : Instr, Laws.WordDigits.Statement i
  | .inp a => Laws.WordDigits.inp a
  | .cla a => Laws.WordDigits.cla a
  | .add a => Laws.WordDigits.add a
  | .tac t => Laws.WordDigits.tac t
  | .sft x y => Laws.WordDigits.sft x y
  | .out a => Laws.WordDigits.out a
  | .sto a => Laws.WordDigits.sto a
  | .sub a => Laws.WordDigits.sub a
  | .jmp t => Laws.WordDigits.jmp t
  | .hrs n => Laws.WordDigits.hrs n

/-- Settles O13: the word's digits are the instruction's opcode and operand, which the opcode map takes back to it. -/
theorem decodingAnEncodedInstructionGivesItBack : Obligations.DecodingAnEncodedInstructionGivesItBack := by
  unfold Obligations.DecodingAnEncodedInstructionGivesItBack
  intro i hi
  obtain ⟨hl, hu, hop, hoperand⟩ := wordDigits i hi
  exact ⟨hl, hu, decode_of_lookup hop hoperand (opcodeMap_opcode_operand hi)⟩

/-- Settles O14: the instruction's opcode and operand are the quotient and the remainder of the word by 100. -/
theorem encodingADecodedWordGivesItBack : Obligations.EncodingADecodedWordGivesItBack := by
  unfold Obligations.EncodingADecodedWordGivesItBack
  intro w i h
  obtain ⟨-, -, hwf, hop, hoperand⟩ := decode_ok h
  refine ⟨hwf, ?_⟩
  unfold encode
  omega

/-! ### Which words decode -/

/-- A negative opcode has no handler (R71). -/
theorem lookupHandler_of_neg {op : Int} (h : op < 0) (n : Nat) : lookupHandler op n = none := if_pos h

/-- Settles O10: floor division and remainder by 100 are Lean's, whose bounds omega knows. -/
theorem decodeSplitsTheWord : Obligations.DecodeSplitsTheWord := by
  unfold Obligations.DecodeSplitsTheWord
  refine ⟨fun w => ?_, by decide, by decide⟩
  have hop : opcodeOf w = w / 100 := floorDiv_hundred w
  have hoperand : operandOf w = (w % 100).toNat := congrArg Int.toNat (floorMod_hundred w)
  rw [hop, hoperand, floorDiv_hundred, floorMod_hundred]
  exact ⟨rfl, by omega, by omega, fun _ _ => by omega,
    fun _ _ => ⟨by omega, by omega, lookupHandler_of_neg (by omega)⟩⟩

/-- Settles O12: a word that decodes is in 0..999, and a word that is rejected is not. -/
theorem exactlyTheWordsZeroTo999Decode : Obligations.ExactlyTheWordsZeroTo999Decode := by
  unfold Obligations.ExactlyTheWordsZeroTo999Decode
  intro w
  constructor
  · rintro ⟨i, h⟩
    obtain ⟨hl, hu, -⟩ := decode_ok h
    exact ⟨hl, hu⟩
  · rintro ⟨hl, hu⟩
    cases h : decode w with
    | ok i => exact ⟨i, rfl⟩
    | error r =>
      obtain ⟨op, x⟩ := r
      obtain ⟨-, -, hout⟩ := decode_error h
      omega

/-! ### The step at a negative word -/

/-- The step at a negative word latches OpcodeFault in the post-fetch state (R71). -/
theorem step_of_negative_word {s : State} {w : Int} (hf : s.fault = none) (hpc : s.pc ≤ 98) (hw : s.cell s.pc = w)
    (hneg : w < 0) : step s = .next (((s.setIr w).setPc (s.pc + 1)).latch (.opcodeFault (w / 100) w)) := by
  subst hw
  rcases fetchDecode_cases s (by omega) with ⟨h99, -⟩ | ⟨-, -, hraised⟩ | ⟨-, i, hd, -⟩
  · omega
  · rw [step_of_clear hf, hraised]
    rfl
  · obtain ⟨hl, -⟩ := decode_ok hd
    omega

/-- Settles O41: the step at a negative word, and the words that decode. -/
theorem negativeWordRaisesOpcodeFault : Obligations.NegativeWordRaisesOpcodeFault := by
  unfold Obligations.NegativeWordRaisesOpcodeFault
  refine ⟨fun s w hf hpc hw hl hu => ?_, fun w hl hu => (exactlyTheWordsZeroTo999Decode w).mpr ⟨hl, hu⟩⟩
  rw [floorDiv_hundred]
  exact ⟨by omega, by omega, step_of_negative_word hf hpc hw (by omega)⟩

end Sys2Proof.Machine
end

section
/-! PROOFS. Construction (spec/30_encoding.md R65 to R70, spec/70_reset_and_hazards.md R192): when a machine is built, and
which ConfigurationFault a failed check raises. -/

namespace Sys2Proof.Machine

/-! ### Construction, check by check in their order -/

theorem construct_of_missingGroup {groups : List Group} {name : GroupName} (p : Params)
    (h : missingGroup groups = some name) : construct groups p = .error (.missingGroup name) := by
  simp only [construct, checkRegistry, h]

theorem construct_of_invalidOpcode {groups : List Group} {d : DeclaredOpcode} (p : Params)
    (hm : missingGroup groups = none) (h : invalidOpcode groups = some d) :
    construct groups p = .error (.invalidOpcode d) := by
  simp only [construct, checkRegistry, hm, h]

theorem construct_of_duplicateOpcode {groups : List Group} {n : Int} (p : Params)
    (hm : missingGroup groups = none) (hi : invalidOpcode groups = none) (h : duplicateOpcode groups = some n) :
    construct groups p = .error (.duplicateOpcode n) := by
  simp only [construct, checkRegistry, hm, hi, h]

theorem construct_of_absentOpcode {groups : List Group} {n : Int} (p : Params)
    (hm : missingGroup groups = none) (hi : invalidOpcode groups = none) (hd : duplicateOpcode groups = none)
    (h : absentOpcode groups = some n) : construct groups p = .error (.missingGroup (groupOf n.toNat)) := by
  simp only [construct, checkRegistry, hm, hi, hd, h]

theorem construct_of_checks {groups : List Group} (p : Params) (hm : missingGroup groups = none)
    (hi : invalidOpcode groups = none) (hd : duplicateOpcode groups = none) (ha : absentOpcode groups = none) :
    construct groups p = .ok (State.powerOn p) := by
  simp only [construct, checkRegistry, hm, hi, hd, ha]

/-- A machine comes out of construction exactly when every check passes, and then in the full-reset state. -/
theorem construct_eq_ok {groups : List Group} {p : Params} {s : State} :
    construct groups p = .ok s ↔ (missingGroup groups = none ∧ invalidOpcode groups = none ∧
      duplicateOpcode groups = none ∧ absentOpcode groups = none) ∧ s = State.powerOn p := by
  cases hm : missingGroup groups with
  | some g => simp [construct_of_missingGroup p hm]
  | none =>
    cases hi : invalidOpcode groups with
    | some d => simp [construct_of_invalidOpcode p hm hi]
    | none =>
      cases hd : duplicateOpcode groups with
      | some n => simp [construct_of_duplicateOpcode p hm hi hd]
      | none =>
        cases ha : absentOpcode groups with
        | some n => simp [construct_of_absentOpcode p hm hi hd ha]
        | none => simp [construct_of_checks p hm hi hd ha, eq_comm]

/-! ### When a machine is built -/

theorem absentOpcode_eq_none {groups : List Group} :
    absentOpcode groups = none ↔ ∀ n : Int, 0 ≤ n → n ≤ 9 → 1 ≤ groups.countP (declares n) := by
  simp only [absentOpcode, List.find?_eq_none, mem_opcodeNumbers, decide_eq_true_eq, and_imp, Nat.one_le_iff_ne_zero]

/-- Exactly one group declares each digit when the last two checks both pass. -/
theorem duplicateOpcode_absentOpcode_eq_none {groups : List Group} :
    duplicateOpcode groups = none ∧ absentOpcode groups = none ↔
      ∀ n : Int, 0 ≤ n → n ≤ 9 → groups.countP (declares n) = 1 := by
  rw [duplicateOpcode_eq_none, absentOpcode_eq_none]
  constructor
  · rintro ⟨hle, hge⟩ n h₀ h₉
    exact le_antisymm (hle n h₀ h₉) (hge n h₀ h₉)
  · intro h
    exact ⟨fun n h₀ h₉ => (h n h₀ h₉).le, fun n h₀ h₉ => (h n h₀ h₉).ge⟩

/-- Settles O16: each check's own condition, put together. -/
theorem constructionChecksTheGroups : Obligations.ConstructionChecksTheGroups := by
  unfold Obligations.ConstructionChecksTheGroups
  intro groups p
  refine ⟨fun s h => (construct_eq_ok.mp h).2, ?_⟩
  simp only [construct_eq_ok, exists_and_left, exists_eq, and_true, missingGroup_eq_none, invalidOpcode_eq_none,
    duplicateOpcode_absentOpcode_eq_none]

/-! ### Which fault a failed check raises -/

theorem exists_missingGroup {groups : List Group} (h : ∃ name, ∀ g ∈ groups, g.name ≠ name) :
    ∃ name, missingGroup groups = some name := by
  obtain ⟨name, hname⟩ := h
  refine Option.ne_none_iff_exists'.mp fun hnone => ?_
  obtain ⟨g, hg, hgn⟩ := missingGroup_eq_none.mp hnone name
  exact hname g hg hgn

/-- Settles O17: the check for a missing group comes first, and what it reports is missing. -/
theorem missingGroupFailsTheBuild : Obligations.MissingGroupFailsTheBuild := by
  unfold Obligations.MissingGroupFailsTheBuild
  intro groups p h
  obtain ⟨name, hname⟩ := exists_missingGroup h
  exact ⟨name, missingGroup_eq_some hname, construct_of_missingGroup p hname⟩

/-- The only group missing is the one reported. -/
theorem missingGroup_of_unique {groups : List Group} {name : GroupName} (h : ∀ g ∈ groups, g.name ≠ name)
    (hother : ∀ other, other ≠ name → ∃ g ∈ groups, g.name = other) : missingGroup groups = some name := by
  obtain ⟨x, hx⟩ := exists_missingGroup ⟨name, h⟩
  obtain rfl : x = name := by
    by_contra hne
    obtain ⟨g, hg, hgx⟩ := hother x hne
    exact missingGroup_eq_some hx g hg hgx
  exact hx

theorem not_valid_of_outside {d : DeclaredOpcode} (h : ∀ n : Int, d = .number n → n < 0 ∨ 9 < n) :
    ¬ ∃ n : Int, d = .number n ∧ 0 ≤ n ∧ n ≤ 9 := by
  rintro ⟨n, hd, h₀, h₉⟩
  have := h n hd
  omega

/-- The only invalid declaration is the one reported. -/
theorem invalidOpcode_of_unique {groups : List Group} {d : DeclaredOpcode} (hd : ∃ g ∈ groups, d ∈ g.opcodes)
    (hout : ∀ n : Int, d = .number n → n < 0 ∨ 9 < n)
    (hother : ∀ g ∈ groups, ∀ e ∈ g.opcodes, e = d ∨ ∃ n : Int, e = .number n ∧ 0 ≤ n ∧ n ≤ 9) :
    invalidOpcode groups = some d := by
  cases h : invalidOpcode groups with
  | none =>
    obtain ⟨g, hg, hdg⟩ := hd
    exact absurd (invalidOpcode_eq_none.mp h g hg d hdg) (not_valid_of_outside hout)
  | some e =>
    obtain ⟨⟨g, hg, heg⟩, hinvalid⟩ := invalidOpcode_eq_some h
    obtain rfl | hvalid := hother g hg e heg
    · rfl
    · exact absurd (validOpcode_iff.mpr hvalid) (by simp [hinvalid])

/-- A number that a group declares is a digit where every declaration is valid. -/
theorem digit_of_declared {groups : List Group} {n : Int} (hn : 0 < groups.countP (declares n))
    (hvalid : ∀ g ∈ groups, ∀ d ∈ g.opcodes, ∃ k : Int, d = .number k ∧ 0 ≤ k ∧ k ≤ 9) : 0 ≤ n ∧ n ≤ 9 := by
  obtain ⟨g, hg, hng⟩ := declared_of_countP hn
  obtain ⟨k, hk, hdigit⟩ := hvalid g hg _ hng
  cases hk
  exact hdigit

/-- The only number declared twice is the one reported. -/
theorem duplicateOpcode_of_unique {groups : List Group} {n : Int} (hn : 2 ≤ groups.countP (declares n))
    (hother : ∀ m, m ≠ n → groups.countP (declares m) ≤ 1)
    (hvalid : ∀ g ∈ groups, ∀ d ∈ g.opcodes, ∃ k : Int, d = .number k ∧ 0 ≤ k ∧ k ≤ 9) :
    duplicateOpcode groups = some n := by
  cases h : duplicateOpcode groups with
  | none =>
    obtain ⟨h₀, h₉⟩ := digit_of_declared (Nat.zero_lt_two.trans_le hn) hvalid
    have := duplicateOpcode_eq_none.mp h n h₀ h₉
    omega
  | some m =>
    obtain ⟨-, -, hm⟩ := duplicateOpcode_eq_some h
    obtain rfl : m = n := by
      by_contra hne
      have := hother m hne
      omega
    rfl

/-- Construction that builds no machine raises a fault. -/
theorem construct_fault_of_not_built {groups : List Group} {p : Params} (h : ¬ ∃ s, construct groups p = .ok s) :
    ∃ f, construct groups p = .error f := by
  cases hc : construct groups p with
  | ok s => exact absurd ⟨s, hc⟩ h
  | error f => exact ⟨f, rfl⟩

/-- Settles O60: a machine built would pass the check that fails, and a check that fails alone reports its one reason. -/
theorem eachRegistryCheckRaisesItsFault : Obligations.EachRegistryCheckRaisesItsFault := by
  unfold Obligations.EachRegistryCheckRaisesItsFault
  intro groups p
  obtain ⟨-, hbuilt⟩ := constructionChecksTheGroups groups p
  refine ⟨?_, ?_, ?_, ?_, ?_, ?_⟩
  · intro h
    obtain ⟨name, -, hfault⟩ := missingGroupFailsTheBuild groups p h
    exact ⟨_, hfault⟩
  · rintro ⟨g, hg, d, hd, hout⟩
    refine construct_fault_of_not_built fun hs => ?_
    obtain ⟨-, hvalid, -⟩ := hbuilt.mp hs
    exact not_valid_of_outside hout (hvalid g hg d hd)
  · rintro ⟨n, hn⟩
    refine construct_fault_of_not_built fun hs => ?_
    obtain ⟨-, hvalid, hone⟩ := hbuilt.mp hs
    obtain ⟨h₀, h₉⟩ := digit_of_declared (Nat.zero_lt_two.trans_le hn) hvalid
    have := hone n h₀ h₉
    omega
  · intro name h hother _ _
    exact construct_of_missingGroup p (missingGroup_of_unique h hother)
  · intro d hd hout hgroups hother _
    exact construct_of_invalidOpcode p (missingGroup_eq_none.mpr hgroups) (invalidOpcode_of_unique hd hout hother)
  · intro n hn hother hgroups hvalid
    exact construct_of_duplicateOpcode p (missingGroup_eq_none.mpr hgroups) (invalidOpcode_eq_none.mpr hvalid)
      (duplicateOpcode_of_unique hn hother hvalid)

end Sys2Proof.Machine
end

section
/-! PROOFS. The step (spec/40_fetch_execute.md R80 to R87): its stages before the handler and its handler, without a bound on
PC; that it happens but for a stuck INP; and that it neither tests nor sets `running`, HRS apart. -/

namespace Sys2Proof.Machine

/-! ### The stages before the handler -/

/-- What is dispatched is the instruction that the cell at PC decodes to, in the post-fetch state. -/
theorem fetchDecode_ready {s s₁ : State} {i : Instr} (h : fetchDecode s = .ready i s₁) :
    s.pc ≤ 98 ∧ decode (s.cell s.pc) = .ok i ∧ s₁ = (s.setIr (s.cell s.pc)).setPc (s.pc + 1) := by
  rcases Nat.lt_or_ge 99 s.pc with hpc | hpc
  · simp [fetchDecode_outside s hpc] at h
  · rcases fetchDecode_cases s hpc with ⟨-, hx⟩ | ⟨-, -, hx⟩ | ⟨h98, j, hj, hx⟩
    · simp [hx] at h
    · simp [hx] at h
    · cases hx.symm.trans h
      exact ⟨h98, hj, rfl⟩

/-- A raise before the handler comes with no write but of PC and IR (R166). -/
theorem fetchDecode_raised {s s₁ : State} {f : Fault} (h : fetchDecode s = .raised f s₁) :
    s₁ = { s with pc := s₁.pc, ir := s₁.ir } := by
  rcases Nat.lt_or_ge 99 s.pc with hpc | hpc
  · cases (fetchDecode_outside s hpc).symm.trans h
    rfl
  · rcases fetchDecode_cases s hpc with ⟨-, hx⟩ | ⟨-, -, hx⟩ | ⟨-, j, -, hx⟩
    · cases hx.symm.trans h
      rfl
    · cases hx.symm.trans h
      rfl
    · simp [hx] at h

theorem step_of_raised {s s₁ : State} {f : Fault} (hf : s.fault = none) (h : fetchDecode s = .raised f s₁) :
    step s = .next (s₁.latch f) := by
  rw [step_of_clear hf, h]
  rfl

theorem step_of_ready {s s₁ : State} {i : Instr} (hf : s.fault = none) (h : fetchDecode s = .ready i s₁) :
    step s = exec i s₁ := by
  rw [step_of_clear hf, h]

/-- A step happens only with no fault latched (R80). -/
theorem fault_of_step_next {s t : State} (h : step s = .next t) : s.fault = none := by
  cases hf : s.fault with
  | none => rfl
  | some f => simp [step_of_fault hf] at h

/-- Settles O42, from the step's test of the latch. -/
theorem latchedFaultBlocksEveryStep : Obligations.LatchedFaultBlocksEveryStep := by
  unfold Obligations.LatchedFaultBlocksEveryStep
  exact ⟨fun s f => step_of_fault, fun s t => fault_of_step_next, fun s => rfl⟩

/-- Settles O39: the word fetched is the cell at PC. -/
theorem stepRunsTheDecodedInstruction : Obligations.StepRunsTheDecodedInstruction := by
  unfold Obligations.StepRunsTheDecodedInstruction
  exact fun s i hf hpc hd => step_of_fetched_word hf hpc rfl hd

/-- Settles O40: at PC = 99 the stages before the handler end in the advance's fault. -/
theorem advanceFromCell99Faults : Obligations.AdvanceFromCell99Faults := by
  unfold Obligations.AdvanceFromCell99Faults
  refine ⟨fun s => advance_of_le, fun s hf h99 => ?_⟩
  rcases fetchDecode_cases s h99.le with ⟨-, hx⟩ | ⟨h98, -⟩ | ⟨h98, -⟩
  · exact step_of_raised hf hx
  · omega
  · omega

/-! ### Handlers answer a next state, and raise nothing -/

theorem withCell_next {a : Nat} {s : State} {k : Int → Result} (hk : ∀ v, ∃ t, k v = .next t) :
    ∃ t, withCell a s k = .next t := by
  rcases Nat.lt_or_ge 99 a with ha | ha
  · exact ⟨_, withCell_of_gt ha s k⟩
  · rw [withCell_of_le ha]
    exact hk _

theorem storing_next {a : Nat} {v : Int} {s : State} {k : State → Result} (hk : ∀ s₁, ∃ t, k s₁ = .next t) :
    ∃ t, storing a v s k = .next t := by
  rcases Nat.lt_or_ge 99 a with ha | ha
  · exact ⟨_, storing_of_gt ha v s k⟩
  · rw [storing_of_le ha]
    exact hk _

/-- A handler does not answer only where it is INP and InPop does not answer. -/
theorem exec_next_or_stuck (i : Instr) (s : State) :
    (∃ t, exec i s = .next t) ∨ ∃ a, i = .inp a ∧ inPop s = none := by
  cases i with
  | inp a =>
    cases hp : inPop s with
    | none => exact .inr ⟨a, rfl, rfl⟩
    | some p =>
      simp only [exec, execInp, hp]
      exact .inl (storing_next fun s₁ => ⟨s₁, rfl⟩)
  | cla a | add a | sub a | out a => exact .inl (withCell_next fun v => ⟨_, rfl⟩)
  | sto a => exact .inl (storing_next fun s₁ => ⟨s₁, rfl⟩)
  | jmp n => exact .inl (storing_next (a := 99) fun s₁ => ⟨branchTo n s₁, rfl⟩)
  | tac t | sft x y | hrs n => exact .inl ⟨_, rfl⟩

/-- Settles O46: a fault raised before the handler is a next state too, and only INP's handler can be without an answer. -/
theorem stepHappensUnlessInpIsStuck : Obligations.StepHappensUnlessInpIsStuck := by
  unfold Obligations.StepHappensUnlessInpIsStuck
  intro s hf _
  cases hx : fetchDecode s with
  | raised f s₁ => exact .inl ⟨_, step_of_raised hf hx⟩
  | ready i s₁ =>
    rw [step_of_ready hf hx]
    obtain ⟨hpc, hd, rfl⟩ := fetchDecode_ready hx
    obtain hnext | ⟨a, rfl, hpop⟩ := exec_next_or_stuck i ((s.setIr (s.cell s.pc)).setPc (s.pc + 1))
    · exact .inl hnext
    · obtain ⟨hq, hl⟩ := (inPop_none_iff _).mp hpop
      exact .inr ⟨execInp_stuck hpop, hq, hl, hpc, a, hd⟩

theorem inPop_fault {s s₁ : State} {x : Token} (h : inPop s = some (x, s₁)) : s₁.fault = s.fault := by
  rcases inPop_cases h with ⟨rest, -, rfl⟩ | ⟨-, -, -, rfl⟩
  · rfl
  · rfl

/-- No handler of an instruction that the encoding can spell touches the latch (R164). -/
theorem exec_fault {i : Instr} {s t : State} (hi : i.wf = true) (h : exec i s = .next t) : t.fault = s.fault := by
  rcases exec_cases hi h with ⟨a, s₁, x, -, -, hpop, rfl⟩ | ⟨-, v, rfl⟩ | ⟨n, -, -, rfl⟩ | ⟨a, -, -, rfl⟩ |
    ⟨a, -, -, rfl⟩ | ⟨n, v, -, -, -, rfl⟩ | ⟨n, -, rfl⟩
  · exact (inPop_fault hpop :)
  · rfl
  · split
    · rfl
    · rfl
  · rfl
  · rfl
  · rfl
  · rfl

/-- A fault that a step raises was raised before the handler. -/
theorem raised_of_step_fault {s t : State} {f : Fault} (h : step s = .next t) (ht : t.fault = some f) :
    ∃ s₁, fetchDecode s = .raised f s₁ ∧ t = s₁.latch f := by
  have hf := fault_of_step_next h
  cases hx : fetchDecode s with
  | raised g s₁ =>
    cases (step_of_raised hf hx).symm.trans h
    cases ht
    exact ⟨s₁, rfl, rfl⟩
  | ready i s₁ =>
    obtain ⟨-, hd, rfl⟩ := fetchDecode_ready hx
    rw [step_of_ready hf hx] at h
    cases (exec_fault (wf_of_decode hd) h).symm.trans ht |>.symm.trans hf

/-- A step that raises a fault writes PC, IR and the latch at most (R166). -/
theorem eq_of_step_fault {s t : State} {f : Fault} (h : step s = .next t) (ht : t.fault = some f) :
    t = { s with pc := t.pc, ir := t.ir, fault := some f } := by
  obtain ⟨s₁, hx, rfl⟩ := raised_of_step_fault h ht
  exact congrArg (State.latch f) (fetchDecode_raised hx)

theorem running_of_step_fault {s t : State} {f : Fault} (h : step s = .next t) (ht : t.fault = some f) :
    t.running = s.running := by
  rw [eq_of_step_fault h ht]

theorem outq_of_step_fault {s t : State} {f : Fault} (h : step s = .next t) (ht : t.fault = some f) :
    t.outq = s.outq := by
  rw [eq_of_step_fault h ht]

/-! ### `running` plays no part in a step (R87) -/

/-- The stages' answer with `b` for `running` in its state. -/
def Fetched.setRunning (b : Bool) : Fetched → Fetched
  | .raised f s => .raised f (s.setRunning b)
  | .ready i s => .ready i (s.setRunning b)

/-- A step's answer with `b` for `running` in the next state, if there is one. -/
def resultSetRunning (b : Bool) : Result → Result
  | .next t => .next (t.setRunning b)
  | .fault f => .fault f
  | .refused r => .refused r

theorem fetch_setRunning (b : Bool) (s : State) : fetch (s.setRunning b) = (fetch s).map (State.setRunning b) := by
  simp only [fetch, memRead_nat, State.setRunning_pc, State.setRunning_cell]
  split <;> rfl

theorem advance_setRunning (b : Bool) (s : State) : advance (s.setRunning b) = (advance s).map (State.setRunning b) := by
  rcases Nat.lt_or_ge 98 s.pc with h | h
  · rw [advance_of_ge (s := s.setRunning b) h, advance_of_ge h]
    rfl
  · rw [advance_of_le (s := s.setRunning b) h, advance_of_le h]
    rfl

theorem decodeStage_setRunning (b : Bool) (s : State) :
    decodeStage (s.setRunning b) = (decodeStage s).setRunning b := by
  simp only [decodeStage, State.setRunning_ir]
  split <;> rfl

theorem fetchDecode_setRunning (b : Bool) (s : State) :
    fetchDecode (s.setRunning b) = (fetchDecode s).setRunning b := by
  simp only [fetchDecode, fetch_setRunning]
  cases fetch s with
  | error f => rfl
  | ok s₁ =>
    simp only [Except.map, advance_setRunning]
    cases advance s₁ with
    | error f => rfl
    | ok s₂ => exact decodeStage_setRunning b s₂

theorem withCell_setRunning {b : Bool} {a : Nat} {s : State} {k k' : Int → Result}
    (hk : ∀ v, k' v = resultSetRunning b (k v)) :
    withCell a (s.setRunning b) k' = resultSetRunning b (withCell a s k) := by
  rcases Nat.lt_or_ge 99 a with ha | ha
  · simp only [withCell_of_gt ha]
    rfl
  · simp only [withCell_of_le ha, State.setRunning_cell, hk]

theorem storing_setRunning {b : Bool} {a : Nat} {v : Int} {s : State} {k : State → Result}
    (hk : ∀ s₁, k (s₁.setRunning b) = resultSetRunning b (k s₁)) :
    storing a v (s.setRunning b) k = resultSetRunning b (storing a v s k) := by
  rcases Nat.lt_or_ge 99 a with ha | ha
  · simp only [storing_of_gt ha]
    rfl
  · simp only [storing_of_le ha, ← hk]
    rfl

theorem inPop_setRunning (b : Bool) (s : State) :
    inPop (s.setRunning b) = (inPop s).map fun p => (p.1, p.2.setRunning b) := by
  cases hq : s.inq with
  | cons x rest =>
    simp only [inPop, State.setRunning_inq, hq, Option.map_some]
    rfl
  | nil =>
    cases hl : s.params.lineProvider with
    | true =>
      simp only [inPop, State.setRunning_inq, hq, State.setRunning_params, hl, if_true, Option.map_some]
      rfl
    | false => simp [inPop, hq, hl]

/-- Every handler but that of HRS does the same whatever `running` is, and keeps it. -/
theorem exec_setRunning {i : Instr} (hi : ∀ n, i ≠ .hrs n) (b : Bool) (s : State) :
    exec i (s.setRunning b) = resultSetRunning b (exec i s) := by
  cases i with
  | inp a =>
    simp only [exec, execInp, inPop_setRunning]
    cases inPop s with
    | none => rfl
    | some p => exact storing_setRunning fun _ => rfl
  | cla a | add a | sub a | out a => exact withCell_setRunning fun _ => rfl
  | sto a => exact storing_setRunning fun _ => rfl
  | jmp n => exact storing_setRunning (a := 99) (k := fun s₁ => .next (branchTo n s₁)) fun _ => rfl
  | sft x y => rfl
  | tac n => exact congrArg Host.Outcome.next (apply_ite (State.setRunning b) _ (branchTo n s) s).symm
  | hrs n => exact absurd rfl (hi n)

/-- The step of an HRS, whatever `running` is (R143). -/
theorem step_of_hrs {s : State} {n : Nat} (hf : s.fault = none) (hpc : s.pc ≤ 98)
    (hd : decode (s.cell s.pc) = .ok (.hrs n)) :
    step s = .next { s with pc := 0, ir := 0, acc := 0, running := false } :=
  step_of_fetched_word hf hpc rfl hd

/-- A step comes to an HRS, or it does the same whatever `running` is, and keeps it. -/
theorem step_comes_to_hrs_or_setRunning (s : State) :
    (s.fault = none ∧ s.pc ≤ 98 ∧ ∃ n, decode (s.cell s.pc) = .ok (.hrs n)) ∨
      ∀ b, step (s.setRunning b) = resultSetRunning b (step s) := by
  cases hf : s.fault with
  | some f =>
    refine .inr fun b => ?_
    rw [step_of_fault (s := s.setRunning b) hf, step_of_fault hf]
    rfl
  | none =>
    cases hx : fetchDecode s with
    | raised f s₁ =>
      refine .inr fun b => ?_
      have hb : fetchDecode (s.setRunning b) = .raised f (s₁.setRunning b) :=
        (fetchDecode_setRunning b s).trans (congrArg _ hx)
      rw [step_of_raised (s := s.setRunning b) hf hb, step_of_raised hf hx]
      rfl
    | ready i s₁ =>
      by_cases hi : ∃ n, i = .hrs n
      · obtain ⟨n, rfl⟩ := hi
        obtain ⟨hpc, hd, -⟩ := fetchDecode_ready hx
        exact .inl ⟨rfl, hpc, n, hd⟩
      · refine .inr fun b => ?_
        have hb : fetchDecode (s.setRunning b) = .ready i (s₁.setRunning b) :=
          (fetchDecode_setRunning b s).trans (congrArg _ hx)
        rw [step_of_ready (s := s.setRunning b) hf hb, step_of_ready hf hx]
        exact exec_setRunning (fun n hn => hi ⟨n, hn⟩) b s₁

/-- A step that commutes with setting `running` keeps it: set to the value it has, nothing changes. -/
theorem running_of_step_setRunning {s t : State} (hcomm : ∀ b, step (s.setRunning b) = resultSetRunning b (step s))
    (h : step s = .next t) : t.running = s.running := by
  have hself : step s = .next (t.setRunning s.running) := (hcomm s.running).trans (congrArg _ h)
  rw [Host.Outcome.next.inj (h.symm.trans hself), State.setRunning_running]

/-- A step keeps `running`, or it is the step of an HRS (R25). -/
theorem step_keeps_running_or_hrs {s t : State} (h : step s = .next t) : t.running = s.running ∨
    ∃ n, decode (s.cell s.pc) = .ok (.hrs n) ∧ t = { s with pc := 0, ir := 0, acc := 0, running := false } := by
  obtain ⟨hf, hpc, n, hd⟩ | hcomm := step_comes_to_hrs_or_setRunning s
  · cases (step_of_hrs hf hpc hd).symm.trans h
    exact .inr ⟨n, hd, rfl⟩
  · exact .inl (running_of_step_setRunning hcomm h)

/-- Nothing sets `running` but the host's Run. -/
theorem not_running_of_step {s t : State} (h : step s = .next t) (hr : s.running = false) : t.running = false := by
  obtain hkeep | ⟨n, -, rfl⟩ := step_keeps_running_or_hrs h
  · exact hkeep.trans hr
  · rfl

/-- Settles O50: the step of an HRS is the same with any value of `running`, and every other commutes with setting it. -/
theorem stepNeitherTestsNorSetsRunning : Obligations.StepNeitherTestsNorSetsRunning := by
  unfold Obligations.StepNeitherTestsNorSetsRunning
  intro s b
  obtain ⟨hf, hpc, n, hd⟩ | hcomm := step_comes_to_hrs_or_setRunning s
  · have hs := step_of_hrs hf hpc hd
    refine ⟨fun t h => .inr ?_, fun r h => ?_⟩
    · cases hs.symm.trans h
      exact ⟨rfl, ⟨n, hd⟩, step_of_hrs (s := s.setRunning b) hf hpc hd⟩
    · cases hs.symm.trans h
  · exact ⟨fun t h => .inl ⟨running_of_step_setRunning hcomm h, (hcomm b).trans (congrArg _ h)⟩,
      fun r h => (hcomm b).trans (congrArg _ h)⟩

end Sys2Proof.Machine
end

section
/-! PROOFS. Runs and the host's operations (spec/40_fetch_execute.md R88 to R96): how a run ends, the engine's move in a run,
the host's single step, and the phase and the open request on which the other operations' admission rests. -/

namespace Sys2Proof.Machine

/-! ### The passes of the loop -/

theorem afterStep_of_fault {t : State} {f : Fault} (h : t.fault = some f) : afterStep t = .faulted f := by
  simp only [afterStep, h]

theorem afterStep_of_halted {t : State} (h : t.fault = none) (hr : t.running = false) : afterStep t = .halted := by
  simp [afterStep, h, hr]

theorem afterStep_of_running {t : State} (h : t.fault = none) (hr : t.running = true) : afterStep t = .goesOn := by
  simp [afterStep, h, hr]

/-- A Stop that is due ends the run before its next step (R89). -/
theorem runLoop_of_stop (k : Nat) (s : State) : runLoop (k + 1) (some 0) s = .stopped (stopRun s) (resultText s.outq) :=
  rfl

theorem runLoop_of_goesOn {s t : State} (k : Nat) {stop : Option Nat} (hs : stop ≠ some 0) (h : step s = .next t)
    (ht : t.fault = none) (hr : t.running = true) : runLoop (k + 1) stop s = runLoop k (stop.map Nat.pred) t := by
  rw [runLoop_of_next k hs h, afterStep_of_running ht hr]

theorem runLoop_of_halted {s t : State} (k : Nat) {stop : Option Nat} (hs : stop ≠ some 0) (h : step s = .next t)
    (ht : t.fault = none) (hr : t.running = false) :
    runLoop (k + 1) stop s = .halted (flushed t) (resultText t.outq) := by
  rw [runLoop_of_next k hs h, afterStep_of_halted ht hr]

theorem runLoop_of_fault {s t : State} {f : Fault} (k : Nat) {stop : Option Nat} (hs : stop ≠ some 0)
    (h : step s = .next t) (ht : t.fault = some f) : runLoop (k + 1) stop s = .faulted t f := by
  rw [runLoop_of_next k hs h, afterStep_of_fault ht]

/-- A step that does not happen leaves the run where it stands (R126). -/
theorem runLoop_of_no_step {s : State} (k : Nat) {stop : Option Nat} (hs : stop ≠ some 0) (h : ∀ t, step s ≠ .next t) :
    runLoop (k + 1) stop s = .notEnded s := by
  cases hx : step s with
  | next t => exact absurd hx (h t)
  | fault f => simp only [runLoop, if_neg hs, hx]
  | refused r => simp only [runLoop, if_neg hs, hx]

/-! ### How a run ends -/

/-- The last pass of a run, from the state `u` in which it begins: what the run comes to there (R94). -/
inductive LastPass (stop : Option Nat) (u : State) : RunEnd → Prop where
  | notEnded : LastPass stop u (.notEnded u)
  | stopped (hstop : stop ≠ none) : LastPass stop u (.stopped (stopRun u) (resultText u.outq))
  | halted {t : State} (hstep : step u = .next t) (ht : t.fault = none) (hr : t.running = false) :
      LastPass stop u (.halted (flushed t) (resultText t.outq))
  | faulted {t : State} {f : Fault} (hstep : step u = .next t) (ht : t.fault = some f) : LastPass stop u (.faulted t f)

/-- Whether a Stop is to come does not depend on the steps it lets pass. -/
theorem LastPass.of_map_pred {stop : Option Nat} {u : State} {e : RunEnd} (h : LastPass (stop.map Nat.pred) u e) :
    LastPass stop u e := by
  cases h with
  | notEnded => exact .notEnded
  | stopped hstop => exact .stopped (mt Option.map_eq_none_iff.mpr hstop)
  | halted hstep ht hr => exact .halted hstep ht hr
  | faulted hstep ht => exact .faulted hstep ht

/-- Every run comes to a last pass, from a state that is still running without a fault. -/
theorem runLoop_lastPass (fuel : Nat) (stop : Option Nat) (s : State) (hf : s.fault = none) (hr : s.running = true) :
    ∃ u, u.fault = none ∧ u.running = true ∧ LastPass stop u (runLoop fuel stop s) := by
  induction fuel generalizing stop s with
  | zero => exact ⟨s, hf, hr, .notEnded⟩
  | succ k ih =>
    by_cases hs : stop = some 0
    · subst hs
      exact ⟨s, hf, hr, .stopped nofun⟩
    by_cases hstep : ∃ t, step s = .next t
    · obtain ⟨t, hstep⟩ := hstep
      cases ht : t.fault with
      | some f => exact ⟨s, hf, hr, runLoop_of_fault k hs hstep ht ▸ .faulted hstep ht⟩
      | none =>
        cases hrt : t.running with
        | false => exact ⟨s, hf, hr, runLoop_of_halted k hs hstep ht hrt ▸ .halted hstep ht hrt⟩
        | true =>
          obtain ⟨u, huf, hur, hu⟩ := ih (stop.map Nat.pred) t ht hrt
          exact ⟨u, huf, hur, runLoop_of_goesOn k hs hstep ht hrt ▸ hu.of_map_pred⟩
    · exact ⟨s, hf, hr, runLoop_of_no_step k hs (fun t ht => hstep ⟨t, ht⟩) ▸ .notEnded⟩

/-- Settles O51: the last pass says how the run ends, and the only step that clears `running` is that of an HRS. -/
theorem runEndsHaltedStoppedOrFaulted : Obligations.RunEndsHaltedStoppedOrFaulted := by
  unfold Obligations.RunEndsHaltedStoppedOrFaulted
  simp only [← resultText_eq_intercalate]
  refine ⟨fun fuel stop s hf hr => ?_, runLoop_of_stop, fun k stop s t hs h => ⟨runLoop_of_goesOn k hs h,
    runLoop_of_halted k hs h, fun f => runLoop_of_fault k hs h⟩, fun k stop s r hs h => ?_, fun stop s => rfl⟩
  · obtain ⟨u, huf, hur, hu⟩ := runLoop_lastPass fuel stop s hf hr
    generalize runLoop fuel stop s = e at hu ⊢
    cases hu with
    | notEnded => exact ⟨hur, huf⟩
    | stopped hstop => exact ⟨hstop, u, huf, hur, rfl, rfl⟩
    | halted hstep ht hrt =>
      obtain hkeep | ⟨n, hd, rfl⟩ := step_keeps_running_or_hrs hstep
      · simp [hkeep, hur] at hrt
      · exact ⟨u, n, huf, hur, hd, rfl, rfl⟩
    | faulted hstep ht =>
      exact ⟨ht, (running_of_step_fault hstep ht).trans hur, u, hstep, outq_of_step_fault hstep ht⟩
  · exact runLoop_of_no_step k hs (by simp [h])

/-! ### The engine's move in a run -/

/-- A step that comes to an instruction asks for no line, but for an INP that finds the queue empty. -/
theorem needsLine_of_decode {s : State} {i : Instr} (hpc : s.pc ≤ 98) (hd : decode (s.cell s.pc) = .ok i)
    (hi : s.inq = [] → ∀ a, i ≠ .inp a) : needsLine s = false := by
  refine Bool.eq_false_iff.mpr fun hn => ?_
  obtain ⟨hq, -, -, a, ha⟩ := (needsLine_iff (by omega)).mp hn
  exact hi hq a (Except.ok.inj (hd.symm.trans ha))

/-- A step that raises a fault asks for no line: it does not come to an INP. -/
theorem needsLine_of_step_fault {s t : State} {f : Fault} (h : step s = .next t) (ht : t.fault = some f) :
    needsLine s = false := by
  obtain ⟨s₁, hx, -⟩ := raised_of_step_fault h ht
  simp [needsLine, hx]

/-- An instruction that is no HRS, and no INP that finds the queue empty, goes on: neither `running` nor the latch changes. -/
theorem step_goes_on {s : State} {i : Instr} (hf : s.fault = none) (hpc : s.pc ≤ 98) (hd : decode (s.cell s.pc) = .ok i)
    (hhrs : ∀ n, i ≠ .hrs n) (hinp : s.inq = [] → ∀ a, i ≠ .inp a) :
    ∃ t, step s = .next t ∧ t.fault = none ∧ t.running = s.running := by
  have hstep := step_of_fetched_word hf hpc rfl hd
  obtain ⟨t, ht⟩ | ⟨a, rfl, hpop⟩ := exec_next_or_stuck i ((s.setIr (s.cell s.pc)).setPc (s.pc + 1))
  · refine ⟨t, hstep.trans ht, (exec_fault (wf_of_decode hd) ht).trans hf, ?_⟩
    obtain hr | ⟨n, hn, -⟩ := step_keeps_running_or_hrs (hstep.trans ht)
    · exact hr
    · exact absurd (Except.ok.inj (hd.symm.trans hn)) (hhrs n)
  · obtain ⟨hq, -⟩ := (inPop_none_iff _).mp hpop
    exact absurd rfl (hinp hq a)

/-- Settles O54: the step of an HRS is settled with a flush, and a step that goes on is settled as it is. -/
theorem hrsEndsTheRunWithAFlush : Obligations.HrsEndsTheRunWithAFlush := by
  unfold Obligations.HrsEndsTheRunWithAFlush
  refine ⟨fun s n hf hr hpc hd => ?_, fun s i hf hr hpc hd hhrs hinp => ?_⟩
  · rw [engineMove_of_step hf hr (needsLine_of_decode hpc hd nofun) (step_of_hrs hf hpc hd), ← resultText_eq_intercalate]
    exact settleInRun_of_halted (t := { s with pc := 0, ir := 0, acc := 0, running := false }) hf rfl
  · obtain ⟨t, h, ht, hrt⟩ := step_goes_on hf hpc hd hhrs hinp
    have hrun := hrt.trans hr
    exact ⟨t, h, (engineMove_of_step hf hr (needsLine_of_decode hpc hd hinp) h).trans (settleInRun_of_running ht hrun),
      phase_eq_running.mpr ⟨ht, hrun⟩⟩

/-- Settles O56: a step that raises a fault is settled without a flush, and writes neither `running` nor the output. -/
theorem faultEndsTheRunWithoutAFlush : Obligations.FaultEndsTheRunWithoutAFlush := by
  unfold Obligations.FaultEndsTheRunWithoutAFlush
  refine ⟨fun s t f _ hr h ht => ?_, fun s t hr hn h ht hrt => ?_⟩
  · have hmove := engineMove_of_step (fault_of_step_next h) hr (needsLine_of_step_fault h ht) h
    exact ⟨hmove.trans (settleInRun_of_fault ht), (running_of_step_fault h ht).trans hr, outq_of_step_fault h ht⟩
  · exact (engineMove_of_step (fault_of_step_next h) hr hn h).trans (settleInRun_of_running ht hrt)

/-! ### Admission by the phase -/

theorem phase_ne_idle {s : State} (h : s.fault ≠ none ∨ s.running = true) : phase s ≠ .idle := by
  simpa [phase_eq_idle, or_iff_not_imp_left] using h

theorem phase_ne_running {s : State} (h : s.fault ≠ none ∨ s.running = false) : phase s ≠ .running := by
  simpa [phase_eq_running, or_iff_not_imp_left] using h

theorem phase_eq_faulted {s : State} {f : Fault} (h : s.fault = some f) : phase s = .faulted := by
  simp only [phase, h]

/-- Settles O52: Run, whole and at the host's interface, looks at the phase first. -/
theorem runIsAdmittedInIdleOnly : Obligations.RunIsAdmittedInIdleOnly := by
  unfold Obligations.RunIsAdmittedInIdleOnly
  refine ⟨fun fuel stop s => ⟨fun hf hr => ?_, fun h => ?_⟩, fun t text f => ⟨rfl, rfl, rfl, rfl⟩⟩
  · have hphase := phase_eq_idle.mpr ⟨hf, hr⟩
    simp only [run, hostOp, hphase]
    exact ⟨rfl, rfl⟩
  · cases hphase : phase s with
    | idle => exact absurd hphase (phase_ne_idle h)
    | running | faulted => simp [run, hostOp, hphase]

/-- Settles O53: a Stop in a run is the loop's Stop, and in any other phase it is refused. -/
theorem stopFlushesTheOutputAndKeepsTheRest : Obligations.StopFlushesTheOutputAndKeepsTheRest := by
  unfold Obligations.StopFlushesTheOutputAndKeepsTheRest
  refine fun s => ⟨fun hf hr => ?_, fun h => ?_⟩
  · rw [← resultText_eq_intercalate]
    exact runLoop_eq_stop 0 hf hr
  · cases hphase : phase s with
    | running => exact absurd hphase (phase_ne_running h)
    | idle | faulted => simp [hostOp, hphase]

/-! ### The host's single step -/

/-- A step begun by the host ends no run, and either waits for a line, with nothing changed, or leaves the machine in the
next state of the engine's step. -/
theorem beginStep_single_done {s : State} {h' : Session} {r : Reply} {e : Option RunReturn}
    (hd : beginStep false s = .done h' r e) : e = none ∧ (h'.core = s ∨ step s = .next h'.core) := by
  unfold beginStep at hd
  split at hd
  · split at hd
    · cases hd
      exact ⟨rfl, .inl rfl⟩
    · cases hd
  · cases hx : step s with
    | next t =>
      rw [hx] at hd
      cases ht : t.fault with
      | none =>
        cases (settleSingle_of_clear ht).symm.trans hd
        exact ⟨rfl, .inr rfl⟩
      | some f =>
        cases (settleSingle_of_fault ht).symm.trans hd
        exact ⟨rfl, .inr rfl⟩
    | fault f | refused r => simp [hx, settleStep] at hd

/-- The host's Step takes place in the Idle phase with no request open, and is then a step begun. -/
theorem hostStep_done {h h' : Session} {r : Reply} {e : Option RunReturn} (hd : hostOp .step h = .done h' r e) :
    phase h.core = .idle ∧ beginStep false h.core = .done h' r e := by
  obtain ⟨s, asking⟩ := h
  cases asking with
  | true => cases hd
  | false =>
    cases hphase : phase s with
    | idle => exact ⟨rfl, by simpa [hostOp, hphase] using hd⟩
    | running | faulted => simp [hostOp, hphase] at hd

/-- Settles O55: the host's Step leaves the state alone or is the engine's step, which keeps `running` false and appends at
most one text. -/
theorem singleStepNeverFlushes : Obligations.SingleStepNeverFlushes := by
  unfold Obligations.SingleStepNeverFlushes
  refine ⟨fun h h' r e hpc hd => ?_, fun s t hf hr hn h => ⟨fun ht => ?_, fun f ht => ?_⟩, fun s h => ?_⟩
  · obtain ⟨hphase, hbegin⟩ := hostStep_done hd
    obtain ⟨hf, hr⟩ := phase_eq_idle.mp hphase
    obtain ⟨he, hsame | hstep⟩ := beginStep_single_done hbegin
    · exact ⟨hf, hr, hsame.symm ▸ hr, .inl (congrArg State.outq hsame), he⟩
    · obtain ⟨-, hq⟩ := queuesArePoppedByInpAndAppendedByOut _ _ hpc hstep
      exact ⟨hf, hr, not_running_of_step hstep hr, hq.imp_right fun ⟨a, _, ha⟩ => ⟨_, ha⟩, he⟩
  · exact ⟨(hostStep_of_step hf hr hn h).trans (settleSingle_of_clear ht),
      phase_eq_idle.mpr ⟨ht, not_running_of_step h hr⟩⟩
  · exact ⟨(hostStep_of_step hf hr hn h).trans (settleSingle_of_fault ht), phase_eq_faulted ht⟩
  · cases hphase : phase s with
    | idle => exact absurd hphase (phase_ne_idle h)
    | running | faulted => simp [hostOp, hphase]

/-! ### The open request -/

/-- Settles O57: every operation but AnswerLine looks at the open request first, and AnswerLine has no place without one. -/
theorem openRequestAdmitsOnlyItsAnswer : Obligations.OpenRequestAdmitsOnlyItsAnswer := by
  unfold Obligations.OpenRequestAdmitsOnlyItsAnswer
  refine fun s x => ⟨fun op hop => ?_, fun hx => ?_, rfl, rfl, rfl⟩
  · cases op with
    | answerLine y => exact absurd rfl (hop y)
    | reset | loadDeck tokens | step | run | stop | read => rfl
  · simp [hostOp, hx]

end Sys2Proof.Machine
end

section
/-! PROOFS. Arithmetic and store (spec/41_arith_store.md R101 to R107): the next state of CLA, ADD, SUB, SFT and STO in
every state, and SFT's two shifts in closed form. -/

namespace Sys2Proof.Machine

/-! ### CLA, ADD, SUB and STO -/

/-- Settles O18, by the rule for a cell that is read. -/
theorem claLoadsTheCell : Obligations.ClaLoadsTheCell := by
  unfold Obligations.ClaLoadsTheCell
  exact fun s a ha => ⟨decode_of_digits (d := 1) ha rfl (by omega), withCell_of_le ha s _⟩

/-- Settles O19, by the rule for a cell that is read. -/
theorem addAddsTheCellWithoutBound : Obligations.AddAddsTheCellWithoutBound := by
  unfold Obligations.AddAddsTheCellWithoutBound
  exact fun s a ha => ⟨decode_of_digits (d := 2) ha rfl (by omega), withCell_of_le ha s _⟩

/-- Settles O20, by the rule for a cell that is read. -/
theorem subSubtractsTheCellWithoutBound : Obligations.SubSubtractsTheCellWithoutBound := by
  unfold Obligations.SubSubtractsTheCellWithoutBound
  exact fun s a ha => ⟨decode_of_digits (d := 7) ha rfl (by omega), withCell_of_le ha s _⟩

/-- Settles O24: the store goes through `writeCell`, which keeps every other cell. -/
theorem stoStoresTheAccumulator : Obligations.StoStoresTheAccumulator := by
  unfold Obligations.StoStoresTheAccumulator
  intro s a ha
  exact ⟨decode_of_digits (d := 6) ha rfl (by omega), _, storing_of_le ha s.acc s .next, rfl,
    readCell_writeCell_same _ _ _, fun b hb => readCell_writeCell_other s.mem a b (trunc3 s.acc) hb⟩

/-! ### The two shifts of SFT -/

/-- SFT shifts the accumulator and writes nothing else (R103). -/
theorem exec_sft (x y : Nat) (s : State) :
    exec (.sft x y) s = .next (s.setAcc (shiftRight y (shiftLeft x s.acc))) := rfl

theorem shiftLeft_eq_iterate (x : Nat) (v : Int) : shiftLeft x v = (fun v => Int.fmod (v * 10) 10000)^[x] v := by
  induction x generalizing v with
  | zero => rfl
  | succ x ih => exact ih _

theorem shiftRight_eq_iterate (y : Nat) (v : Int) : shiftRight y v = (fun v => Int.fdiv v 10)^[y] v := by
  induction y generalizing v with
  | zero => rfl
  | succ y ih => exact ih _

/-- Settles O21: each shift is its floor operation, iterated. -/
theorem sftShiftsLeftThenRight : Obligations.SftShiftsLeftThenRight := by
  unfold Obligations.SftShiftsLeftThenRight
  intro s x y hx hy
  have hmap : opcodeMap 4 (10 * x + y) = some (.sft x y) :=
    opcodeMap_opcode_operand (i := .sft x y) (decide_eq_true ⟨hx, hy⟩)
  refine ⟨decode_of_digits (d := 4) (by omega) hmap (by omega), ?_⟩
  rw [exec_sft, shiftRight_eq_iterate, shiftLeft_eq_iterate]
  rfl

/-- Right shifts make one floor division: dividing by 10 and then by 10^y is dividing by their product. -/
theorem shiftRight_eq_ediv (y : Nat) (v : Int) : shiftRight y v = v / 10 ^ y := by
  induction y generalizing v with
  | zero => simp [shiftRight]
  | succ y ih => rw [shiftRight, ih, floorDiv_ten, Int.ediv_ediv_of_nonneg (by decide), pow_succ']

/-- Left shifts make one floor remainder: a remainder taken before the later factors is absorbed by the last one. -/
theorem shiftLeft_succ_eq_emod (x : Nat) (v : Int) : shiftLeft (x + 1) v = v * 10 ^ (x + 1) % 10000 := by
  induction x generalizing v with
  | zero => simp [shiftLeft]
  | succ x ih =>
    calc shiftLeft (x + 2) v = v * 10 % 10000 * 10 ^ (x + 1) % 10000 := by rw [shiftLeft, ih, floorMod_shiftMod]
      _ = v * 10 * 10 ^ (x + 1) % 10000 := (Int.mod_modEq (v * 10) 10000).mul_right _
      _ = v * 10 ^ (x + 2) % 10000 := by rw [mul_assoc, ← pow_succ']

/-- Settles O22: the two closed forms, with Lean's `/` and `%` read back as floor division and remainder. -/
theorem sftHasAClosedForm : Obligations.SftHasAClosedForm := by
  unfold Obligations.SftHasAClosedForm
  intro s x y _ _
  rw [exec_sft, shiftRight_eq_ediv, ← floorDiv_eq (b := 10 ^ y) _ (by positivity)]
  cases x with
  | zero => rfl
  | succ x =>
    rw [shiftLeft_succ_eq_emod, ← floorMod_shiftMod, if_neg x.succ_ne_zero]
    rfl

/-! ### Corner cases of the shifts -/

theorem shiftLeft_range {x : Nat} (hx : 1 ≤ x) (v : Int) : 0 ≤ shiftLeft x v ∧ shiftLeft x v ≤ 9999 := by
  obtain ⟨n, rfl⟩ := Nat.exists_eq_add_of_le' hx
  rw [shiftLeft_succ_eq_emod]
  omega

/-- Four left shifts or more move every digit out, as 10000 divides the factor. -/
theorem shiftLeft_eq_zero {x : Nat} (hx : 4 ≤ x) (v : Int) : shiftLeft x v = 0 := by
  obtain ⟨n, rfl⟩ := Nat.exists_eq_add_of_le' hx
  have hfactor : v * 10 ^ (n + 4) = 10000 * (v * 10 ^ n) := by ring
  rw [shiftLeft_succ_eq_emod (n + 3), hfactor, Int.mul_emod_right]

theorem shiftRight_range {v : Int} (hv : 0 ≤ v) (y : Nat) : 0 ≤ shiftRight y v ∧ shiftRight y v ≤ v := by
  rw [shiftRight_eq_ediv]
  exact ⟨Int.ediv_nonneg hv (by positivity), Int.ediv_le_self _ hv⟩

/-- Floor division keeps a negative value negative: it never reaches 0. -/
theorem shiftRight_neg {v : Int} (hv : v < 0) (y : Nat) : shiftRight y v < 0 := by
  rw [shiftRight_eq_ediv]
  exact Int.ediv_neg_of_neg_of_pos hv (by positivity)

theorem shiftRight_eq_zero {v : Int} {y : Nat} (hv : 0 ≤ v) (hlt : v < 10 ^ y) : shiftRight y v = 0 := by
  rw [shiftRight_eq_ediv]
  exact Int.ediv_eq_zero_of_lt hv hlt

/-- Settles O23: the left shift fixes the range, and the right shift keeps within it. -/
theorem sftCornerCases : Obligations.SftCornerCases := by
  unfold Obligations.SftCornerCases
  refine fun s x y _ _ => ⟨_, exec_sft x y s, ?_, fun hx => ?_, fun hx => ?_, ?_, ?_⟩
  · rintro rfl rfl
    rfl
  · obtain ⟨hl, hu⟩ := shiftLeft_range hx s.acc
    obtain ⟨hr, hle⟩ := shiftRight_range hl y
    exact ⟨hr, hle.trans hu⟩
  · rw [State.setAcc_acc, shiftLeft_eq_zero hx]
    exact shiftRight_eq_zero le_rfl (by positivity)
  · rintro rfl hneg
    exact shiftRight_neg hneg y
  · rintro rfl hv hlt
    exact shiftRight_eq_zero hv hlt

end Sys2Proof.Machine
end

section
/-! PROOFS. Input and output (spec/42_io.md R121 to R127): the texts that are tokens, what INP and OUT store and append, the
line request with its answer, and LoadDeck. -/

namespace Sys2Proof.Machine

/-! ### A text that reads as a token is its text -/

theorem digitChar_of_digitOfChar {c : Char} {d : Digit} (h : digitOfChar c = some d) : digitChar d.val = c := by
  obtain ⟨hc, hd⟩ := Option.dite_none_right_eq_some.mp h
  cases hd
  have hcode : 48 + (c.toNat - 48) = c.toNat := by omega
  simp only [digitChar, hcode, Char.ofNat_toNat]

theorem map_digitChar_of_digitsOfText {x : Text} {ds : List Digit} (h : digitsOfText x = some ds) :
    (ds.map fun d => digitChar d.val) = x := by
  induction x generalizing ds with
  | nil =>
    cases h
    rfl
  | cons c x ih =>
    unfold digitsOfText at h
    split at h
    · rename_i e es hc hx
      cases h
      rw [List.map_cons, digitChar_of_digitOfChar hc, ih hx]
    · cases h

/-- A token read after the sign `sign` is that sign with the text's digits. -/
theorem unsignedToken_eq_some {sign : Option Sign} {x : Text} {t : Token} (h : unsignedToken sign x = some t) :
    ∃ d ds, x = (d :: ds).map (fun e : Digit => digitChar e.val) ∧ t = ⟨sign, d, ds⟩ := by
  unfold unsignedToken at h
  split at h
  · rename_i d ds hds
    cases h
    exact ⟨d, ds, (map_digitChar_of_digitsOfText hds).symm, rfl⟩
  · cases h

theorem tokenText_of_tokenOfText {x : Text} {t : Token} (h : tokenOfText x = some t) : tokenText t = x := by
  unfold tokenOfText at h
  split at h <;> obtain ⟨d, ds, rfl, rfl⟩ := unsignedToken_eq_some h <;> rfl

/-- Settles O4: reading a text takes off its sign and its digits, which are the token's own. -/
theorem tokenTextsReadBack : Obligations.TokenTextsReadBack := by
  unfold Obligations.TokenTextsReadBack
  exact ⟨tokenOfText_tokenText, fun x t => tokenText_of_tokenOfText⟩

/-! ### INP and OUT -/

theorem inPop_of_front {s : State} {x : Token} {rest : List Token} (h : s.inq = x :: rest) :
    inPop s = some (x, s.setInq rest) := by
  simp only [inPop, h]

theorem inPop_of_provider {s : State} (hq : s.inq = []) (hl : s.params.lineProvider = true) :
    inPop s = some (Config.lineAnswer s.lineRequests, s.countRequest) := by
  simp only [inPop, hq, hl, if_true]

/-- INP writes its cell alone, with trunc3 of the value of the token that InPop gives (R124). -/
theorem execInp_writes_cell {s s₁ : State} {x : Token} {a : Nat} (ha : a ≤ 99) (h : inPop s = some (x, s₁)) :
    ∃ t, exec (.inp a) s = .next t ∧ t = { s₁ with mem := t.mem } ∧ t.cell a = trunc3 (parse x) ∧
      ∀ b, b ≠ a → t.cell b = s.cell b :=
  ⟨_, execInp_of_pop ha h, rfl, readCell_writeCell_same _ _ _,
    fun b hb => (readCell_writeCell_other _ _ _ _ hb).trans (inPop_cell h b)⟩

/-- Settles O25: InPop gives the front token and leaves the rest. -/
theorem inpStoresTheFrontToken : Obligations.InpStoresTheFrontToken := by
  unfold Obligations.InpStoresTheFrontToken
  exact fun s a x rest ha hq => ⟨decode_of_digits (d := 0) ha rfl (by omega), execInp_writes_cell ha (inPop_of_front hq)⟩

/-- Settles O26: InPop gives the provider's answer and leaves the queue as it is. -/
theorem inpStoresTheProvidersAnswer : Obligations.InpStoresTheProvidersAnswer := by
  unfold Obligations.InpStoresTheProvidersAnswer
  exact fun s a ha hq hl => execInp_writes_cell ha (inPop_of_provider hq hl)

/-- Settles O27: the step comes to the handler of the INP, and InPop does not answer. -/
theorem inpWithoutProviderNeverHappens : Obligations.InpWithoutProviderNeverHappens := by
  unfold Obligations.InpWithoutProviderNeverHappens
  intro s a hf hpc hd hq hl
  rw [step_of_fetched_word hf hpc rfl hd]
  exact execInp_stuck ((inPop_none_iff _).mpr ⟨hq, hl⟩)

/-- Settles O28, by the rule for a cell that is read. -/
theorem outAppendsTheCellText : Obligations.OutAppendsTheCellText := by
  unfold Obligations.OutAppendsTheCellText
  exact fun s a ha => ⟨decode_of_digits (d := 5) ha rfl (by omega), withCell_of_le ha s _⟩

/-! ### The line request and its answer -/

theorem address_le_of_decode {w : Int} {a : Nat} (h : decode w = .ok (.inp a)) : a ≤ 99 :=
  of_decide_eq_true (wf_of_decode h)

section
variable {s : State} {a : Nat} (hf : s.fault = none) (hpc : s.pc ≤ 98) (hd : decode (s.cell s.pc) = .ok (.inp a))
  (hq : s.inq = [])
include hf hpc hd hq

/-- The answer completes the INP: it writes IR, PC and its cell, and is not left in the queue (R126). -/
theorem stepAnswered_of_inp (x : Token) :
    stepAnswered x s =
      .next (((s.setIr (s.cell s.pc)).setPc (s.pc + 1)).setMem (writeCell s.mem a (trunc3 (parse x)))) := by
  have hstep := step_of_fetched_word (s := s.setInq [x]) hf hpc rfl hd
  rw [stepAnswered, hstep, execInp_of_pop (address_le_of_decode hd) (inPop_of_front rfl)]
  cases s
  cases hq
  rfl

theorem step_of_asking_inp (hl : s.params.lineProvider = true) :
    step s = .next (((s.setIr (s.cell s.pc)).setPc (s.pc + 1)).countRequest.setMem
      (writeCell s.mem a (trunc3 (parse (Config.lineAnswer s.lineRequests))))) := by
  rw [step_of_fetched_word hf hpc rfl hd]
  exact execInp_of_pop (address_le_of_decode hd) (inPop_of_provider hq hl)

theorem needsLine_of_inp : needsLine s = true :=
  (needsLine_iff (by omega)).mpr ⟨hq, hf, hpc, a, hd⟩

end

/-- Settles O32: both steps write the same, but for the count. -/
theorem freeAnswerIsOneOfTheHostsAnswers : Obligations.FreeAnswerIsOneOfTheHostsAnswers := by
  unfold Obligations.FreeAnswerIsOneOfTheHostsAnswers
  intro s hpc hn hl
  obtain ⟨hq, hf, h98, a, hd⟩ := (needsLine_iff hpc).mp hn
  exact ⟨_, stepAnswered_of_inp hf h98 hd hq _, step_of_asking_inp hf h98 hd hq hl⟩

/-- A step begun that needs a line waits for the provider's answer, or for ever where there is no provider (R126). -/
theorem beginStep_of_needsLine {s : State} (inRun : Bool) (hn : needsLine s = true) :
    (s.params.lineProvider = false → beginStep inRun s = .never) ∧
      (s.params.lineProvider = true → beginStep inRun s = .done ⟨s, true⟩ .lineRequest none) := by
  refine ⟨fun hl => ?_, fun hl => ?_⟩
  · simp [beginStep, hn, hl]
  · simp [beginStep, hn, hl]

theorem hostStep_of_idle {s : State} (hf : s.fault = none) (hr : s.running = false) :
    hostOp .step ⟨s, false⟩ = beginStep false s := by
  simp [hostOp, phase_eq_idle.mpr ⟨hf, hr⟩]

theorem engineMove_of_running {s : State} (hf : s.fault = none) (hr : s.running = true) :
    engineMove ⟨s, false⟩ = beginStep true s := by
  simp [engineMove, phase_eq_running.mpr ⟨hf, hr⟩]

/-- An answered step that raises nothing and leaves `running` alone hands nothing back and ends no run. -/
theorem answerLine_of_step {s t : State} {x : Text} {tok : Token} (hx : tokenOfText x = some tok)
    (h : stepAnswered tok s = .next t) (ht : t.fault = none) (hr : t.running = s.running) :
    hostOp (.answerLine x) ⟨s, true⟩ = .done ⟨t, false⟩ .nothing none := by
  have hsettle : hostOp (.answerLine x) ⟨s, true⟩ = settle t.running t := by simp [hostOp, hx, h, settleStep, hr]
  rw [hsettle]
  cases htr : t.running with
  | false => exact settleSingle_of_clear ht
  | true => exact settleInRun_of_running ht htr

/-- Settles O31: the step begun asks for a line, and the step answered is settled as one that goes on. -/
theorem answerLineCompletesTheWaitingInp : Obligations.AnswerLineCompletesTheWaitingInp := by
  unfold Obligations.AnswerLineCompletesTheWaitingInp
  intro s a x tok hf hpc hd hq hx
  have hn := needsLine_of_inp hf hpc hd hq
  refine ⟨fun hr => ?_, fun hr => ?_, _, answerLine_of_step hx (stepAnswered_of_inp hf hpc hd hq tok) hf rfl,
    rfl, readCell_writeCell_same _ _ _, fun b hb => readCell_writeCell_other s.mem a b _ hb⟩
  · rw [hostStep_of_idle hf hr]
    exact beginStep_of_needsLine false hn
  · rw [engineMove_of_running hf hr]
    exact beginStep_of_needsLine true hn

/-! ### LoadDeck -/

theorem tokensOfTexts_of_tokens {texts : List Text} {ts : List Token} (h : texts.map tokenOfText = ts.map some) :
    tokensOfTexts texts = some ts := by
  induction ts generalizing texts with
  | nil =>
    obtain rfl := List.map_eq_nil_iff.mp h
    rfl
  | cons t ts ih =>
    obtain ⟨x, rest, rfl, hx, hrest⟩ := List.map_eq_cons_iff.mp h
    simp only [tokensOfTexts, hx, ih hrest]

theorem tokensOfTexts_of_malformed {texts : List Text} (h : none ∈ texts.map tokenOfText) :
    tokensOfTexts texts = none := by
  induction texts with
  | nil => cases h
  | cons x texts ih =>
    cases hx : tokenOfText x with
    | none => simp [tokensOfTexts, hx]
    | some t =>
      have hrest : none ∈ texts.map tokenOfText := by simpa [hx] using h
      simp [tokensOfTexts, ih hrest]

/-- Settles O33: LoadDeck looks at the phase and at the texts, and is refused if either is not as it needs. -/
theorem loadDeckAppendsInIdleOnly : Obligations.LoadDeckAppendsInIdleOnly := by
  unfold Obligations.LoadDeckAppendsInIdleOnly
  refine fun s texts => ⟨fun ts hf hr hts => ?_, fun h => ?_⟩
  · simp [hostOp, phase_eq_idle.mpr ⟨hf, hr⟩, tokensOfTexts_of_tokens hts, loadDeck, State.setInq]
  · cases hphase : phase s with
    | running | faulted => simp [hostOp, hphase]
    | idle =>
      obtain ⟨hf, hr⟩ := phase_eq_idle.mp hphase
      have hnone : none ∈ texts.map tokenOfText := by simpa [hf, hr] using h
      simp [hostOp, tokensOfTexts_of_malformed hnone]

end Sys2Proof.Machine
end

section
/-! PROOFS. Control (spec/43_control.md R141 to R144): the next state of TAC, JMP and HRS, and the return word that JMP 99
leaves at the cell it jumps to. -/

namespace Sys2Proof.Machine

/-! ### JMP and its return word -/

/-- The return word of a PC in 0..99 is a cell value, so it is stored whole (R142). -/
theorem exec_jmp {s : State} (hpc : s.pc ≤ 99) (n : Nat) :
    exec (.jmp n) s = .next ((s.setMem (writeCell s.mem 99 (s.pc + 800))).setPc n) := by
  have hword : trunc3 ((s.pc + 800 : Nat) : Int) = s.pc + 800 := trunc3_of_cellValue (by omega) (by omega)
  simp only [exec, execJmp, storing_of_le le_rfl, branchTo, hword]

/-- Settles O35: the return word goes through `writeCell`, which keeps every other cell. -/
theorem jmpLeavesTheReturnWord : Obligations.JmpLeavesTheReturnWord := by
  unfold Obligations.JmpLeavesTheReturnWord
  intro s n hn hpc
  refine ⟨decode_of_digits (d := 8) hn rfl (by omega), _, exec_jmp hpc n, rfl, ?_, fun b hb => ?_⟩
  · rw [State.setPc_cell, State.setMem_cell, readCell_writeCell_same]
  · rw [State.setPc_cell, State.setMem_cell, readCell_writeCell_other _ _ _ _ hb]
    rfl

/-- Settles O38: the word fetched from cell 99 is the one that JMP has just left there, and the PC cannot advance. -/
theorem returnWordCannotRunInCell99 : Obligations.ReturnWordCannotRunInCell99 := by
  unfold Obligations.ReturnWordCannotRunInCell99
  intro s hf hpc
  obtain ⟨-, t, hexec, ht, hword, -⟩ := jmpLeavesTheReturnWord s 99 le_rfl hpc
  have ht99 : t.pc = 99 := congrArg State.pc ht
  have htf : t.fault = none := (congrArg State.fault ht).trans hf
  obtain ⟨-, hstep⟩ := advanceFromCell99Faults
  rw [← hword]
  exact ⟨t, hexec, ht99, hstep t htf ht99⟩

/-! ### TAC and HRS -/

/-- Settles O34: TAC's test is the sign of ACC. -/
theorem tacBranchesExactlyWhenNegative : Obligations.TacBranchesExactlyWhenNegative := by
  unfold Obligations.TacBranchesExactlyWhenNegative
  intro s n hn
  refine ⟨decode_of_digits (d := 3) hn rfl (by omega), ?_⟩
  by_cases hneg : s.acc < 0
  · simp [exec, execTac, accNegative, hneg, branchTo, State.setPc]
  · simp [exec, execTac, accNegative, hneg]

/-- Settles O36: the handler is four register writes, and it does not look at its operand. -/
theorem hrsResetsTheRegistersOnly : Obligations.HrsResetsTheRegistersOnly := by
  unfold Obligations.HrsResetsTheRegistersOnly
  exact fun s n hn => ⟨decode_of_digits (d := 9) hn rfl (by omega), rfl⟩

end Sys2Proof.Machine
end

section
/-! PROOFS. Faults (spec/60_exceptions.md R164 to R179): handlers raise none, what a step that raises one leaves, and exactly
when a step raises one. -/

namespace Sys2Proof.Machine

/-- No handler answers the host's fault outcome: it answers a next state, or it is a stuck INP (R164). -/
theorem exec_ne_fault (i : Instr) (s : State) (f : Fault) : exec i s ≠ .fault f := by
  intro h
  obtain ⟨t, hnext⟩ | ⟨a, rfl, hpop⟩ := exec_next_or_stuck i s
  · simp [hnext] at h
  · simp [execInp_stuck hpop] at h

/-- Settles O43: no handler answers the fault outcome, and none touches the latch. -/
theorem handlersRaiseNoFault : Obligations.HandlersRaiseNoFault := by
  unfold Obligations.HandlersRaiseNoFault
  exact fun i s hi => ⟨exec_ne_fault i s, fun _ => exec_fault hi⟩

/-- A step that leaves a fault latched is one of the two raises before the handler. -/
theorem step_fault_cases {s t : State} {f : Fault} (hpc : s.pc ≤ 99) (h : step s = .next t) (ht : t.fault = some f) :
    (s.pc = 99 ∧ f = .addressFault 100 ∧ t = (s.setIr (s.cell 99)).latch f) ∨
      (s.pc ≤ 98 ∧ (s.cell s.pc < 0 ∨ 999 < s.cell s.pc) ∧
        f = .opcodeFault (s.cell s.pc / 100) (s.cell s.pc) ∧
        t = ((s.setIr (s.cell s.pc)).setPc (s.pc + 1)).latch f) := by
  obtain ⟨s₁, hraised, rfl⟩ := raised_of_step_fault h ht
  rcases fetchDecode_cases s hpc with ⟨h99, hx⟩ | ⟨h98, hw, hx⟩ | ⟨-, i, -, hx⟩
  · cases hx.symm.trans hraised
    exact .inl ⟨h99, rfl, rfl⟩
  · cases hx.symm.trans hraised
    exact .inr ⟨h98, hw, rfl, rfl⟩
  · simp [hx] at hraised

/-- Settles O44: the fetched word goes into IR, PC advances in the OpcodeFault alone, and the record is latched. -/
theorem faultEntryKeepsTheSnapshot : Obligations.FaultEntryKeepsTheSnapshot := by
  unfold Obligations.FaultEntryKeepsTheSnapshot
  intro s t f hpc h ht
  rw [floorDiv_hundred]
  obtain haddress | ⟨h98, -, hopcode⟩ := step_fault_cases hpc h ht
  · exact .inl haddress
  · exact .inr ⟨h98, hopcode⟩

/-- The invariant rules out a word above 999, so a word that spells no instruction is negative (R71, R179). -/
theorem faultAhead_of_step_fault {s t : State} {f : Fault} (hs : s.Inv) (h : step s = .next t) (ht : t.fault = some f) :
    s.faultAhead := by
  obtain ⟨h99, -⟩ | ⟨-, hw, -⟩ := step_fault_cases hs.pc_le h ht
  · exact .inl h99
  · have hcell : -999 ≤ s.cell s.pc ∧ s.cell s.pc ≤ 999 := readCell_range hs.mem_range s.pc
    exact .inr (by omega)

theorem step_fault_of_faultAhead {s : State} (hpc : s.pc ≤ 99) (hf : s.fault = none) (h : s.faultAhead) :
    ∃ t f, step s = .next t ∧ t.fault = some f := by
  by_cases h99 : s.pc = 99
  · obtain ⟨-, hstep⟩ := advanceFromCell99Faults
    exact ⟨_, _, hstep s hf h99, rfl⟩
  · have hneg : s.cell s.pc < 0 := h.resolve_left h99
    exact ⟨_, _, step_of_negative_word hf (by omega) rfl hneg, rfl⟩

/-- With a line provider no INP is stuck, so every step happens (R126, log entry 4). -/
theorem step_next_of_provider {s : State} (hpc : s.pc ≤ 99) (hf : s.fault = none) (hl : s.params.lineProvider = true) :
    ∃ t, step s = .next t := by
  obtain hnext | ⟨-, -, hno, -⟩ := stepHappensUnlessInpIsStuck s hf hpc
  · exact hnext
  · simp [hl] at hno

/-- Settles O45: both directions of the fault's condition; a step that happens is safe where the condition fails. -/
theorem stepFaultsExactlyOnCell99OrNegativeWord : Obligations.StepFaultsExactlyOnCell99OrNegativeWord := by
  unfold Obligations.StepFaultsExactlyOnCell99OrNegativeWord
  intro s hs hf
  have hfault : (∃ t f, step s = .next t ∧ t.fault = some f) ↔ s.faultAhead :=
    ⟨fun ⟨_, _, h, ht⟩ => faultAhead_of_step_fault hs h ht, step_fault_of_faultAhead hs.pc_le hf⟩
  refine ⟨hfault, fun hl => ⟨?_, fun hsafe => ?_⟩⟩
  · rintro ⟨t, h, ht⟩ hahead
    obtain ⟨u, f, hu, huf⟩ := hfault.mpr hahead
    cases h.symm.trans hu
    simp [ht] at huf
  · obtain ⟨t, h⟩ := step_next_of_provider hs.pc_le hf hl
    refine ⟨t, h, Option.eq_none_iff_forall_ne_some.mpr fun f ht => ?_⟩
    exact hsafe (hfault.mp ⟨t, f, h, ht⟩)

end Sys2Proof.Machine
end

section
/-! PROOFS. Reset (spec/70_reset_and_hazards.md R191 to R194): the state after a full reset, the Faulted phase that only the
host's Reset leaves, and the bootstrap INP of the first step. -/

namespace Sys2Proof.Machine

/-! ### The full reset -/

/-- A full reset puts BOOT_WORD into cell 0 and blanks every other cell (R191). -/
theorem fullReset_cell (s : State) (a : Nat) : (fullReset s).cell a = if a = 0 then s.params.bootWord else 0 := by
  by_cases ha : a = 0
  · subst ha
    exact readCell_writeCell_same _ _ _
  · rw [if_neg ha]
    exact readCell_writeCell_other _ _ _ _ ha

/-- In the Faulted phase the host's Reset and Read alone are admitted (R92, R168). -/
theorem hostOp_refused_of_fault {s : State} (hf : s.fault ≠ none) {op : HostOp} (hreset : op ≠ .reset)
    (hread : op ≠ .read) : hostOp op ⟨s, false⟩ = .refused := by
  obtain ⟨f, hf⟩ := Option.ne_none_iff_exists'.mp hf
  have hphase := phase_eq_faulted hf
  cases op with
  | reset => exact absurd rfl hreset
  | read => exact absurd rfl hread
  | answerLine text => rfl
  | loadDeck texts | step | run | stop => simp [hostOp, hphase]

/-- Of the two operations that a faulted machine admits, Read changes nothing (R37, R191). -/
theorem eq_reset_of_hostOp_clears_fault {s : State} {op : HostOp} {h' : Session} {r : Reply} {e : Option RunReturn}
    (hf : s.fault ≠ none) (hd : hostOp op ⟨s, false⟩ = .done h' r e) (hclear : h'.core.fault = none) : op = .reset := by
  by_contra hreset
  by_cases hread : op = .read
  · subst hread
    cases hd
    exact hf hclear
  · cases (hostOp_refused_of_fault hf hreset hread).symm.trans hd

/-- Settles O58: the full reset writes every field, and a faulted machine refuses what is neither Reset nor Read. -/
theorem fullResetSetsEveryPieceOfState : Obligations.FullResetSetsEveryPieceOfState := by
  unfold Obligations.FullResetSetsEveryPieceOfState
  exact fun s => ⟨rfl, phase_eq_idle.mpr ⟨rfl, rfl⟩, rfl, rfl, rfl, rfl, rfl, rfl, rfl, fullReset_cell s 0,
    fun a ha => (fullReset_cell s a).trans (if_neg ha), rfl, fun op h' r e => eq_reset_of_hostOp_clears_fault⟩

/-! ### The first step -/

/-- The word in cell 0 of the reset state is 001, which spells INP 01 (R194). -/
theorem decode_reset_cell_zero : decode (State.reset.cell 0) = .ok (.inp 1) :=
  decode_of_digits (d := 0) (n := 1) (by decide) rfl (by decide)

/-- Settles O59: the step is the INP in the post-fetch state, where the token is at the front of the queue. -/
theorem firstStepFromResetIsTheBootstrapInp : Obligations.FirstStepFromResetIsTheBootstrapInp := by
  unfold Obligations.FirstStepFromResetIsTheBootstrapInp
  refine ⟨decode_reset_cell_zero, fun x rest => ?_⟩
  have hstep := step_of_fetched_word (s := { State.reset with inq := x :: rest }) rfl (Nat.zero_le _) rfl
    decode_reset_cell_zero
  obtain ⟨-, t, hexec, ht, hcell, hother⟩ := inpStoresTheFrontToken
    ((State.setIr 1 { State.reset with inq := x :: rest }).setPc 1) 1 x rest (by decide) rfl
  exact ⟨t, hstep.trans hexec, congrArg State.pc ht, congrArg State.ir ht, congrArg State.inq ht, hcell,
    hother 0 (by decide)⟩

end Sys2Proof.Machine
end

section
/-! PROOFS. The decode vectors (spec/95_test_vectors.md 2.3): words that the opcode map takes by their digits, and negative
words, which are all rejected. -/

namespace Sys2Proof.Machine

/-- A negative word is rejected with its opcode, the quotient by 100 rounded down (R62, R71). -/
theorem decode_of_neg {w : Int} (h : w < 0) : decode w = .error (.noHandler (w / 100) w) := by
  rw [decode_eq, lookupHandler_of_neg (by omega)]

/-- Settles O15: the first five words by their digits, the last four because they are negative. -/
theorem wordsOfTheTestVectorsDecode : Obligations.WordsOfTheTestVectorsDecode := by
  unfold Obligations.WordsOfTheTestVectorsDecode
  refine ⟨?_, ?_, ?_, ?_, ?_, ?_, ?_, ?_, ?_⟩
  · exact decode_of_digits (d := 0) (n := 0) (by decide) rfl rfl
  · exact decode_of_digits (d := 0) (n := 1) (by decide) rfl rfl
  · exact decode_of_digits (d := 4) (n := 23) (by decide) rfl rfl
  · exact decode_of_digits (d := 8) (n := 99) (by decide) rfl rfl
  · exact decode_of_digits (d := 9) (n := 99) (by decide) rfl rfl
  · exact decode_of_neg (w := -1) (by decide)
  · exact decode_of_neg (w := -100) (by decide)
  · exact decode_of_neg (w := -101) (by decide)
  · exact decode_of_neg (w := -999) (by decide)

end Sys2Proof.Machine
end
